-- ==== Sys2Proof/Word.lean ====
section
/-! DEFINITION. The word types of the CHIP-8 core (spec/00_scope.md section 5 and rule R8): every value of the machine is
an unsigned number of a stated width, bit 0 its least significant bit. -/
namespace Sys2Proof

/-- A byte: a general register, a timer, a byte of memory, the immediate `nn` (`XLEN`, `TLEN`). -/
abbrev Byte := BitVec 8

/-- A 16-bit word: the program counter, the index register, a stack entry, the key mask, an instruction word. -/
abbrev Word := BitVec 16

/-- A register index `x` or `y`, 0 to 15 (R74). -/
abbrev RegIdx := BitVec 4

/-- The immediate `n`, a number of sprite rows, 0 to 15 (R73). -/
abbrev Nibble := BitVec 4

/-- The immediate `nnn`, a 12-bit byte address (R73). -/
abbrev Addr := BitVec 12

end Sys2Proof
end

