-- ==== Sys2Proof/Syntax.lean ====
section
/-! DEFINITION. The instruction set: the 34 rows of spec/opcode_table.json (R75), one constructor a row, in the table's
order.  Operands have the exact width of their field (R71, R73, R74), so no operand of an `Instr` is out of range. -/
namespace Sys2Proof

/-- An instruction (R75). -/
inductive Instr where
  | clearScreen
  | ret
  | jump (nnn : Addr)
  | call (nnn : Addr)
  | skipEqImm (x : RegIdx) (nn : Byte)
  | skipNeImm (x : RegIdx) (nn : Byte)
  | skipEqReg (x y : RegIdx)
  | loadImm (x : RegIdx) (nn : Byte)
  | addImm (x : RegIdx) (nn : Byte)
  | assignReg (x y : RegIdx)
  | orReg (x y : RegIdx)
  | andReg (x y : RegIdx)
  | xorReg (x y : RegIdx)
  | addReg (x y : RegIdx)
  | subReg (x y : RegIdx)
  | shrReg (x y : RegIdx)
  | subnReg (x y : RegIdx)
  | shlReg (x y : RegIdx)
  | skipNeReg (x y : RegIdx)
  | setIndex (nnn : Addr)
  | jumpOffset (nnn : Addr)
  | random (x : RegIdx) (nn : Byte)
  | drawSprite (x y : RegIdx) (n : Nibble)
  | skipKeyPressed (x : RegIdx)
  | skipKeyNotPressed (x : RegIdx)
  | getDelayTimer (x : RegIdx)
  | waitKey (x : RegIdx)
  | setDelayTimer (x : RegIdx)
  | setSoundTimer (x : RegIdx)
  | addToIndex (x : RegIdx)
  | fontCharAddress (x : RegIdx)
  | storeBcd (x : RegIdx)
  | storeRegisters (x : RegIdx)
  | loadRegisters (x : RegIdx)
  deriving DecidableEq, Repr

/-- The name of an instruction's row in R75 (the source's family name as one token). -/
def Instr.name : Instr → String
  | .clearScreen => "clear-screen"
  | .ret => "return"
  | .jump _ => "jump"
  | .call _ => "call"
  | .skipEqImm _ _ => "skip-eq-imm"
  | .skipNeImm _ _ => "skip-ne-imm"
  | .skipEqReg _ _ => "skip-eq-reg"
  | .loadImm _ _ => "load-imm"
  | .addImm _ _ => "add-imm"
  | .assignReg _ _ => "assign-reg"
  | .orReg _ _ => "or-reg"
  | .andReg _ _ => "and-reg"
  | .xorReg _ _ => "xor-reg"
  | .addReg _ _ => "add-reg"
  | .subReg _ _ => "sub-reg"
  | .shrReg _ _ => "shr-reg"
  | .subnReg _ _ => "subn-reg"
  | .shlReg _ _ => "shl-reg"
  | .skipNeReg _ _ => "skip-ne-reg"
  | .setIndex _ => "set-index"
  | .jumpOffset _ => "jump-offset"
  | .random _ _ => "random"
  | .drawSprite _ _ _ => "draw-sprite"
  | .skipKeyPressed _ => "skip-key-pressed"
  | .skipKeyNotPressed _ => "skip-key-not-pressed"
  | .getDelayTimer _ => "get-delay-timer"
  | .waitKey _ => "wait-key"
  | .setDelayTimer _ => "set-delay-timer"
  | .setSoundTimer _ => "set-sound-timer"
  | .addToIndex _ => "add-to-index"
  | .fontCharAddress _ => "font-char-address"
  | .storeBcd _ => "store-bcd"
  | .storeRegisters _ => "store-registers"
  | .loadRegisters _ => "load-registers"

/-- The operands of an instruction as numbers, in the order the assembly syntax writes them (R81). -/
def Instr.operands : Instr → List Nat
  | .clearScreen | .ret => []
  | .jump a | .call a | .setIndex a | .jumpOffset a => [a.toNat]
  | .skipEqImm x nn | .skipNeImm x nn | .loadImm x nn | .addImm x nn | .random x nn => [x.toNat, nn.toNat]
  | .skipEqReg x y | .skipNeReg x y | .assignReg x y | .orReg x y | .andReg x y | .xorReg x y
  | .addReg x y | .subReg x y | .shrReg x y | .subnReg x y | .shlReg x y => [x.toNat, y.toNat]
  | .drawSprite x y n => [x.toNat, y.toNat, n.toNat]
  | .skipKeyPressed x | .skipKeyNotPressed x | .getDelayTimer x | .waitKey x | .setDelayTimer x
  | .setSoundTimer x | .addToIndex x | .fontCharAddress x | .storeBcd x | .storeRegisters x
  | .loadRegisters x => [x.toNat]

end Sys2Proof
end

