-- ==== Sys2Proof/Decode.lean ====
section
/-! DEFINITION. Encoding (spec/30_encoding.md): the fields of an instruction word (R71), the decoder (R76), total on any bytes and
rejecting by name, the encoder (R81), and the opcode map as one table (R75).  The numeric opcode values are the
customary ones, which the spec supplies from general knowledge (G1; log entry 5, PRESUMED). -/
namespace Sys2Proof

/-! ## Fields (R71) -/

/-- The leading nibble, `w[15:12]`: the family. -/
def opField (w : Word) : BitVec 4 := w.extractLsb' 12 4

/-- The second nibble, `w[11:8]`: register X. -/
def xField (w : Word) : RegIdx := w.extractLsb' 8 4

/-- The third nibble, `w[7:4]`: register Y. -/
def yField (w : Word) : RegIdx := w.extractLsb' 4 4

/-- The trailing nibble, `w[3:0]`: sub-opcode or sprite height. -/
def nField (w : Word) : Nibble := w.extractLsb' 0 4

/-- The trailing byte, `w[7:0]`: immediate or sub-opcode. -/
def nnField (w : Word) : Byte := w.extractLsb' 0 8

/-- The low 12 bits, `w[11:0]`: address immediate. -/
def nnnField (w : Word) : Addr := w.extractLsb' 0 12

/-! ## The decoder (R76) -/

/-- Family 0: only the words 0x00E0 and 0x00EE are instructions (R76, R80). -/
def decodeFamily0 (w : Word) : Option Instr :=
  if w = 0x00E0#16 then some .clearScreen else if w = 0x00EE#16 then some .ret else none

/-- Family 8: the trailing nibble selects the register-register operation. -/
def decodeFamily8 (w : Word) : Option Instr :=
  let x := xField w
  let y := yField w
  match nField w with
  | 0x0#4 => some (.assignReg x y)
  | 0x1#4 => some (.orReg x y)
  | 0x2#4 => some (.andReg x y)
  | 0x3#4 => some (.xorReg x y)
  | 0x4#4 => some (.addReg x y)
  | 0x5#4 => some (.subReg x y)
  | 0x6#4 => some (.shrReg x y)
  | 0x7#4 => some (.subnReg x y)
  | 0xE#4 => some (.shlReg x y)
  | _ => none

/-- Family E: the trailing byte selects the key skip. -/
def decodeFamilyE (w : Word) : Option Instr :=
  match nnField w with
  | 0x9E#8 => some (.skipKeyPressed (xField w))
  | 0xA1#8 => some (.skipKeyNotPressed (xField w))
  | _ => none

/-- Family F: the trailing byte selects the operation. -/
def decodeFamilyF (w : Word) : Option Instr :=
  let x := xField w
  match nnField w with
  | 0x07#8 => some (.getDelayTimer x)
  | 0x0A#8 => some (.waitKey x)
  | 0x15#8 => some (.setDelayTimer x)
  | 0x18#8 => some (.setSoundTimer x)
  | 0x1E#8 => some (.addToIndex x)
  | 0x29#8 => some (.fontCharAddress x)
  | 0x33#8 => some (.storeBcd x)
  | 0x55#8 => some (.storeRegisters x)
  | 0x65#8 => some (.loadRegisters x)
  | _ => none

/-- `Decode(w)` of R76; `none` is "unknown" (R79). -/
def decode (w : Word) : Option Instr :=
  match opField w with
  | 0x0#4 => decodeFamily0 w
  | 0x1#4 => some (.jump (nnnField w))
  | 0x2#4 => some (.call (nnnField w))
  | 0x3#4 => some (.skipEqImm (xField w) (nnField w))
  | 0x4#4 => some (.skipNeImm (xField w) (nnField w))
  | 0x5#4 => if nField w = 0 then some (.skipEqReg (xField w) (yField w)) else none
  | 0x6#4 => some (.loadImm (xField w) (nnField w))
  | 0x7#4 => some (.addImm (xField w) (nnField w))
  | 0x8#4 => decodeFamily8 w
  | 0x9#4 => if nField w = 0 then some (.skipNeReg (xField w) (yField w)) else none
  | 0xA#4 => some (.setIndex (nnnField w))
  | 0xB#4 => some (.jumpOffset (nnnField w))
  | 0xC#4 => some (.random (xField w) (nnField w))
  | 0xD#4 => some (.drawSprite (xField w) (yField w) (nField w))
  | 0xE#4 => decodeFamilyE w
  | _ => decodeFamilyF w -- 0xF, the one value left

/-- Why bytes are not an instruction. -/
inductive DecodeError where
  /-- fewer than two bytes are left -/
  | truncated
  /-- the word matches no row of R75 (R79) -/
  | unknownOpcode (w : Word)
  deriving DecidableEq, Repr

/-- The instruction word of two bytes, the byte at the lower address as the high byte: `w[15:8]`, `w[7:0]` (R53). -/
def joinBytes (hi lo : Byte) : Word := hi.setWidth 16 <<< 8 ||| lo.setWidth 16

/-- The instruction at the head of a list of bytes, with the bytes after it: two bytes, the high byte first (R53, R70). -/
def decodeBytes : List Byte → Except DecodeError (Instr × List Byte)
  | hi :: lo :: rest =>
    match decode (joinBytes hi lo) with
    | some i => .ok (i, rest)
    | none => .error (.unknownOpcode (joinBytes hi lo))
  | _ => .error .truncated

/-- The bytes of a word as memory holds them, the high byte at the lower address (R53). -/
def wordBytes (w : Word) : List Byte := [w.extractLsb' 8 8, w.extractLsb' 0 8]

/-- The word of an opcode-table row as the decoder reads it: the two bytes laid out high byte first. -/
def decodeTableWord (nbits w : Nat) : Option Instr :=
  match decodeBytes (wordBytes (BitVec.ofNat 16 (w % 2 ^ nbits))) with
  | .ok (i, _) => some i
  | .error _ => none

/-! ## The encoder (R75, R81) -/

/-- A register index in the place of field `x`: `x << 8`. -/
def placeX (x : RegIdx) : Word := x.setWidth 16 <<< 8

/-- A register index in the place of field `y`: `y << 4`. -/
def placeY (y : RegIdx) : Word := y.setWidth 16 <<< 4

/-- An immediate in its place at the low end of the word: `n`, `nn` or `nnn`. -/
def placeLow (k : Nat) (imm : BitVec k) : Word := imm.setWidth 16

/-- Format NNN: `match or nnn`. -/
def encodeNnn (value : Word) (nnn : Addr) : Word := value ||| placeLow 12 nnn

/-- Format XNN: `match or (x << 8) or nn`. -/
def encodeXnn (value : Word) (x : RegIdx) (nn : Byte) : Word := value ||| placeX x ||| placeLow 8 nn

/-- Format XY: `match or (x << 8) or (y << 4)`. -/
def encodeXy (value : Word) (x y : RegIdx) : Word := value ||| placeX x ||| placeY y

/-- Format XYN: `match or (x << 8) or (y << 4) or n`. -/
def encodeXyn (value : Word) (x y : RegIdx) (n : Nibble) : Word := value ||| placeX x ||| placeY y ||| placeLow 4 n

/-- Format X: `match or (x << 8)`. -/
def encodeX (value : Word) (x : RegIdx) : Word := value ||| placeX x

/-- The word of an instruction: its row's `match` with the fields of its format (R75, R81). -/
def encode : Instr → Word
  | .clearScreen => 0x00E0#16
  | .ret => 0x00EE#16
  | .jump nnn => encodeNnn 0x1000#16 nnn
  | .call nnn => encodeNnn 0x2000#16 nnn
  | .skipEqImm x nn => encodeXnn 0x3000#16 x nn
  | .skipNeImm x nn => encodeXnn 0x4000#16 x nn
  | .skipEqReg x y => encodeXy 0x5000#16 x y
  | .loadImm x nn => encodeXnn 0x6000#16 x nn
  | .addImm x nn => encodeXnn 0x7000#16 x nn
  | .assignReg x y => encodeXy 0x8000#16 x y
  | .orReg x y => encodeXy 0x8001#16 x y
  | .andReg x y => encodeXy 0x8002#16 x y
  | .xorReg x y => encodeXy 0x8003#16 x y
  | .addReg x y => encodeXy 0x8004#16 x y
  | .subReg x y => encodeXy 0x8005#16 x y
  | .shrReg x y => encodeXy 0x8006#16 x y
  | .subnReg x y => encodeXy 0x8007#16 x y
  | .shlReg x y => encodeXy 0x800E#16 x y
  | .skipNeReg x y => encodeXy 0x9000#16 x y
  | .setIndex nnn => encodeNnn 0xA000#16 nnn
  | .jumpOffset nnn => encodeNnn 0xB000#16 nnn
  | .random x nn => encodeXnn 0xC000#16 x nn
  | .drawSprite x y n => encodeXyn 0xD000#16 x y n
  | .skipKeyPressed x => encodeX 0xE09E#16 x
  | .skipKeyNotPressed x => encodeX 0xE0A1#16 x
  | .getDelayTimer x => encodeX 0xF007#16 x
  | .waitKey x => encodeX 0xF00A#16 x
  | .setDelayTimer x => encodeX 0xF015#16 x
  | .setSoundTimer x => encodeX 0xF018#16 x
  | .addToIndex x => encodeX 0xF01E#16 x
  | .fontCharAddress x => encodeX 0xF029#16 x
  | .storeBcd x => encodeX 0xF033#16 x
  | .storeRegisters x => encodeX 0xF055#16 x
  | .loadRegisters x => encodeX 0xF065#16 x

/-- The two bytes of an instruction in memory (R53, R81). -/
def encodeBytes (i : Instr) : List Byte := wordBytes (encode i)

/-! ## The opcode map (R75) -/

/-- A row of R75: a word `w` is this instruction exactly when `w &&& mask = value`. -/
structure OpcodeRow where
  name : String
  value : Word
  mask : Word
  deriving DecidableEq, Repr

/-- Whether a word matches a row. -/
def rowMatches (r : OpcodeRow) (w : Word) : Bool := w &&& r.mask == r.value

/-- Rows 1 to 9 of R75. -/
def opcodeRowsA : List OpcodeRow :=
  [ ⟨"clear-screen", 0x00E0#16, 0xFFFF#16⟩, ⟨"return", 0x00EE#16, 0xFFFF#16⟩, ⟨"jump", 0x1000#16, 0xF000#16⟩,
    ⟨"call", 0x2000#16, 0xF000#16⟩, ⟨"skip-eq-imm", 0x3000#16, 0xF000#16⟩, ⟨"skip-ne-imm", 0x4000#16, 0xF000#16⟩,
    ⟨"skip-eq-reg", 0x5000#16, 0xF00F#16⟩, ⟨"load-imm", 0x6000#16, 0xF000#16⟩, ⟨"add-imm", 0x7000#16, 0xF000#16⟩ ]

/-- Rows 10 to 18 of R75. -/
def opcodeRowsB : List OpcodeRow :=
  [ ⟨"assign-reg", 0x8000#16, 0xF00F#16⟩, ⟨"or-reg", 0x8001#16, 0xF00F#16⟩, ⟨"and-reg", 0x8002#16, 0xF00F#16⟩,
    ⟨"xor-reg", 0x8003#16, 0xF00F#16⟩, ⟨"add-reg", 0x8004#16, 0xF00F#16⟩, ⟨"sub-reg", 0x8005#16, 0xF00F#16⟩,
    ⟨"shr-reg", 0x8006#16, 0xF00F#16⟩, ⟨"subn-reg", 0x8007#16, 0xF00F#16⟩, ⟨"shl-reg", 0x800E#16, 0xF00F#16⟩ ]

/-- Rows 19 to 25 of R75. -/
def opcodeRowsC : List OpcodeRow :=
  [ ⟨"skip-ne-reg", 0x9000#16, 0xF00F#16⟩, ⟨"set-index", 0xA000#16, 0xF000#16⟩, ⟨"jump-offset", 0xB000#16, 0xF000#16⟩,
    ⟨"random", 0xC000#16, 0xF000#16⟩, ⟨"draw-sprite", 0xD000#16, 0xF000#16⟩,
    ⟨"skip-key-pressed", 0xE09E#16, 0xF0FF#16⟩, ⟨"skip-key-not-pressed", 0xE0A1#16, 0xF0FF#16⟩ ]

/-- Rows 26 to 34 of R75. -/
def opcodeRowsD : List OpcodeRow :=
  [ ⟨"get-delay-timer", 0xF007#16, 0xF0FF#16⟩, ⟨"wait-key", 0xF00A#16, 0xF0FF#16⟩,
    ⟨"set-delay-timer", 0xF015#16, 0xF0FF#16⟩, ⟨"set-sound-timer", 0xF018#16, 0xF0FF#16⟩,
    ⟨"add-to-index", 0xF01E#16, 0xF0FF#16⟩, ⟨"font-char-address", 0xF029#16, 0xF0FF#16⟩,
    ⟨"store-bcd", 0xF033#16, 0xF0FF#16⟩, ⟨"store-registers", 0xF055#16, 0xF0FF#16⟩,
    ⟨"load-registers", 0xF065#16, 0xF0FF#16⟩ ]

/-- The 34 rows of R75. -/
def opcodeTable : List OpcodeRow := opcodeRowsA ++ opcodeRowsB ++ opcodeRowsC ++ opcodeRowsD

end Sys2Proof
end

