-- ==== Sys2Proof/Config.lean ====
section
/-! DEFINITION. What is fixed for this machine (spec/00_scope.md section 5, R7) and the one value the spec leaves free (the
random byte, R131). The parameters a test could show wrong, the font bytes and `SHIFT_USES_VY`, stand in
Machine/Ops.lean and Machine/Operands.lean. -/
namespace Sys2Proof

/-- `MEM_SIZE - 1`: the highest valid address, 0xFFF (R30). -/
@[simp] abbrev Config.maxAddr : Nat := 0xFFF

/-- `LOAD_BASE`: where `Load` puts the image, and the reset value of `PC` (R35, R233). -/
@[simp] abbrev Config.loadBase : Nat := 0x200

/-- FREE VALUE: the byte drawn by the `k`-th `random` instruction.  R131: it is an input "under no law", so nothing is
known of it; see log entry 2 (DESIGN CHOICE, safe). -/
opaque Config.randomByte : Nat → Byte

end Sys2Proof
end

