-- ==== Sys2Proof/Machine/State.lean ====
section
/-! DEFINITION. The state of the CHIP-8 core (spec/10_state.md section 1), the five error kinds (R200), the ways a step could
stop, and the state after reset (R35). -/
namespace Sys2Proof.Machine

/-- The framebuffer, 64×32 one-bit pixels (R27).  It is row-major: bit `px` of row `py` is the pixel at column `px`
and row `py`, that is `FB[px + 64 * py]`, 1 for on (log entry 21). -/
abbrev Framebuffer := Vector (BitVec 64) 32

/-- The source's error kinds (R200); "no others". -/
inductive ErrorKind where
  /-- an access or a redirection above 0xFFF (R201); fatal -/
  | outOfRangeAddress
  /-- `call` when the stack is at capacity (R202); fatal -/
  | stackOverflow
  /-- `return` when the stack is empty (R203); fatal -/
  | stackUnderflow
  /-- a word that matches no row of R75 (R204); not fatal -/
  | unknownOpcode
  /-- a program image that does not fit (R213); fatal -/
  | loadTooLarge
  deriving DecidableEq, Repr

/-- The machine state (spec/10_state.md section 1). -/
structure State where
  /-- `V[0..15]`, the general registers; `V[15]` is the flag register VF (R20, R21) -/
  v : Vector Byte 16
  /-- `I`, the index register (R22) -/
  i : Word
  /-- `PC`, the address of the instruction to fetch (R23) -/
  pc : Word
  /-- `STACK[0..15]`, the return addresses (R25) -/
  stack : Vector Word 16
  /-- `SP`, the number of stack entries in use, 0 to 16 (R25; log entry 22) -/
  sp : Fin 17
  /-- `DT`, the delay timer (R26) -/
  dt : Byte
  /-- `ST`, the sound timer (R26) -/
  st : Byte
  /-- `FB`, the framebuffer (R27) -/
  fb : Framebuffer
  /-- `KEYS`, the input snapshot; bit `k` is 1 when key `k` is down (R28) -/
  keys : Word
  /-- `MEM[0..4095]`, as the bytes that differ from what `Memory.resetByte` gives, addresses rising (R30; log entry 3) -/
  mem : List Host.Cell
  /-- `HALT`, 1 after a fatal error until `Reset` (R29) -/
  halt : Bool
  /-- `ERR`, the code of the fatal error that set `HALT`, 0 when there is none (R29) -/
  err : BitVec 3
  /-- `UNK`, sticky: an unknown word has been executed since `Reset` (R29) -/
  unk : Bool
  /-- THE MODEL'S OWN: how many random bytes have been drawn, the argument of `Config.randomByte` (log entry 2) -/
  draws : Nat
  deriving DecidableEq, Repr

/-- The ways a step can stop outside the state: none.  R200 closes the list of error kinds, and R205 gives the effect of
each fatal one on the state (`HALT`, `ERR`), so it is a next state; nobody raises a `Fault`. -/
inductive Fault where
  deriving DecidableEq, Repr

/-- The ways a step can be refused. -/
inductive Refusal where
  /-- `exec` of an instruction that has no meaning yet; no arm answers it in this model.  Safe. -/
  | notModelled (mnemonic : String)
  deriving DecidableEq, Repr

/-- What an instruction's meaning answers. -/
abbrev Result := Host.Outcome State Fault Refusal

/-- The state after `Reset` (R35).  The elements that R36 leaves unspecified have one named value here: `FB`,
`STACK`, `KEYS` zero (log entry 4, DESIGN CHOICE) and memory with nothing listed (log entry 3).  `opReset` of
Machine/Operations.lean is the same operation for every value of them. -/
def State.reset : State where
  v := Vector.replicate 16 0
  i := 0
  pc := 0x200
  stack := Vector.replicate 16 0
  sp := 0
  dt := 0
  st := 0
  fb := Vector.replicate 32 0
  keys := 0
  mem := []
  halt := false
  err := 0
  unk := false
  draws := 0

end Sys2Proof.Machine
end

