-- ==== Sys2Proof/Machine/Ops.lean ====
section
/-! DEFINITION. The named operations over the state: the font and memory (spec/20_memory.md), the registers (R20), the call stack
(R25), the directives that end an instruction (R42), raising an error (R205), and the fetch (R53). -/
namespace Sys2Proof.Machine

/-! ## The font (R31) -/

/-- `FONT[0..79]`: the sprites of the digits 0 to F, five bytes each.  The byte values are from general knowledge
(G2; log entry 6, PRESUMED). -/
def font : List Byte :=
  [0xF0, 0x90, 0x90, 0x90, 0xF0, 0x20, 0x60, 0x20, 0x20, 0x70] ++ -- 0 1
  [0xF0, 0x10, 0xF0, 0x80, 0xF0, 0xF0, 0x10, 0xF0, 0x10, 0xF0] ++ -- 2 3
  [0x90, 0x90, 0xF0, 0x10, 0x10, 0xF0, 0x80, 0xF0, 0x10, 0xF0] ++ -- 4 5
  [0xF0, 0x80, 0xF0, 0x90, 0xF0, 0xF0, 0x10, 0x20, 0x40, 0x40] ++ -- 6 7
  [0xF0, 0x90, 0xF0, 0x90, 0xF0, 0xF0, 0x90, 0xF0, 0x10, 0xF0] ++ -- 8 9
  [0xF0, 0x90, 0xF0, 0x90, 0x90, 0xE0, 0x90, 0xE0, 0x90, 0xE0] ++ -- A B
  [0xF0, 0x80, 0x80, 0x80, 0xF0, 0xE0, 0x90, 0x90, 0x90, 0xE0] ++ -- C D
  [0xF0, 0x80, 0xF0, 0x80, 0xF0, 0xF0, 0x80, 0xF0, 0x80, 0x80]    -- E F

/-! ## Memory (R30, R50, R51) -/

/-- What an address that the memory list does not name reads as: the font below 0x050 (R31, R35), and 0x00 above it,
where R36 leaves the reset contents unspecified (log entry 3, DESIGN CHOICE). -/
def Memory.resetByte (a : Nat) : Byte := font.getD a 0

/-- `MEM[a]`, one byte. -/
def Memory.read : List Host.Cell → Nat → Byte
  | [], a => Memory.resetByte a
  | (b, u) :: m, a => if a = b then u else Memory.read m a

/-- `MEM[a] <- u`, one byte, keeping the canonical form `Memory.wf`. -/
def Memory.write : List Host.Cell → Nat → Byte → List Host.Cell
  | [], a, u => if u = Memory.resetByte a then [] else [(a, u)]
  | (b, w) :: m, a, u =>
    if a < b then
      if u = Memory.resetByte a then (b, w) :: m else (a, u) :: (b, w) :: m
    else if a = b then
      if u = Memory.resetByte a then m else (a, u) :: m
    else (b, w) :: Memory.write m a u

/-- The canonical form from a lowest address on: addresses strictly rising and at most 0xFFF, and no entry equal to what
an unlisted address reads as. -/
def Memory.wfFrom : Nat → List Host.Cell → Bool
  | _, [] => true
  | lo, (a, u) :: m =>
    decide (lo ≤ a) && decide (a ≤ Config.maxAddr) && !(u == Memory.resetByte a) && Memory.wfFrom (a + 1) m

/-- The canonical form of a memory: equal memories are equal lists. -/
def Memory.wf (m : List Host.Cell) : Bool := Memory.wfFrom 0 m

/-- Consecutive bytes from `base` on, written in ascending order. -/
def Memory.writeBytes (m : List Host.Cell) (base : Nat) : List Byte → List Host.Cell
  | [] => m
  | u :: us => Memory.writeBytes (Memory.write m base u) (base + 1) us

/-- The `n` bytes from `base` on, lowest address first. -/
def Memory.readBytes (m : List Host.Cell) (base : Nat) : Nat → List Byte
  | 0 => []
  | n + 1 => Memory.read m base :: Memory.readBytes m (base + 1) n

/-- One byte of the state's memory. -/
def State.byteAt (s : State) (a : Nat) : Byte := Memory.read s.mem a

/-- `MemWrite` of consecutive bytes whose range has been checked (R51, R52). -/
def State.store (s : State) (base : Nat) (us : List Byte) : State :=
  { s with mem := Memory.writeBytes s.mem base us }

/-! ## Registers (R20) -/

/-- `V[x]`. -/
def State.reg (s : State) (x : RegIdx) : Byte := s.v[x.toNat]

/-- `V[x] <- u`. -/
def State.setReg (s : State) (x : RegIdx) (u : Byte) : State := { s with v := s.v.set x.toNat u }

/-- All sixteen registers at once. -/
def State.setRegs (s : State) (v : Vector Byte 16) : State := { s with v := v }

/-- The index of the flag register VF (R21). -/
def vf : RegIdx := 15

/-- `PC <- a`. -/
def State.setPc (s : State) (a : Word) : State := { s with pc := a }

/-! ## Directives (R42): how an instruction ends -/

/-- `advance`: `PC <- PC + 2`. -/
def advance (s : State) : Result := .next (s.setPc (s.pc + 2))

/-- `skip`: `PC <- PC + 4`. -/
def skip (s : State) : Result := .next (s.setPc (s.pc + 4))

/-- `hold`: PC unchanged, and nothing else changes (R39). -/
def hold (s : State) : Result := .next s

/-- `PC <- t`: "nothing is added afterwards". -/
def jumpTo (t : Word) (s : State) : Result := .next (s.setPc t)

/-- A conditional skip (R24): 4 when the condition holds and 2 when not. -/
def skipIf (c : Bool) (s : State) : Result := if c then skip s else advance s

/-! ## Errors (R200, R205) -/

/-- The code of an error kind (R200). -/
def ErrorKind.code : ErrorKind → BitVec 3
  | .outOfRangeAddress => 1
  | .stackOverflow => 2
  | .stackUnderflow => 3
  | .unknownOpcode => 4
  | .loadTooLarge => 5

/-- The error kind of a code; `none` for 0, "no error", and for the codes no error has. -/
def ErrorKind.ofCode (c : BitVec 3) : Option ErrorKind :=
  [ErrorKind.outOfRangeAddress, .stackOverflow, .stackUnderflow, .unknownOpcode, .loadTooLarge].find?
    fun e => e.code == c

/-- The state after a fatal error: `HALT <- 1`, `ERR <- code`, "Nothing else changes" (R205). -/
def State.halted (s : State) (e : ErrorKind) : State := { s with halt := true, err := e.code }

/-- TAKING A FATAL ERROR (R205): the one way an instruction raises.  There is no handler and no return from it; only
`Reset` leaves the halted state (R207). -/
def raise (e : ErrorKind) (s : State) : Result := .next (s.halted e)

/-- The range check of a whole access whose last address is `last` (R52): `OutOfRangeAddress` above 0xFFF, before any read
or write, and otherwise the rest of the instruction. -/
def checkRange (last : Nat) (s : State) (rest : Result) : Result :=
  if last > Config.maxAddr then raise .outOfRangeAddress s else rest

/-- A redirection to a natural-number target (R201): `OutOfRangeAddress` above 0xFFF. -/
def redirect (t : Nat) (s : State) : Result := checkRange t s (jumpTo (BitVec.ofNat 16 t) s)

/-! ## The call stack (R25) -/

/-- A push, or `StackOverflow` when the stack is full (R102). -/
def push (u : Word) (s : State) (rest : State → Result) : Result :=
  if h : s.sp.val < 16 then
    rest { s with stack := s.stack.set s.sp.val u, sp := ⟨s.sp.val + 1, by omega⟩ }
  else raise .stackOverflow s

/-- A pop, or `StackUnderflow` when the stack is empty (R100); `rest` is given the popped entry and the state after the
pop. -/
def pop (s : State) (rest : Word → State → Result) : Result :=
  if h : s.sp.val = 0 then raise .stackUnderflow s
  else rest (s.stack[s.sp.val - 1]'(by omega)) { s with sp := ⟨s.sp.val - 1, by omega⟩ }

/-! ## Fetch and the unknown word -/

/-- The instruction word at `PC`, high byte first (R53); `none` when `PC > 0xFFE` and no byte is read (R39). -/
def fetch (s : State) : Option Word :=
  if s.pc.toNat + 1 > Config.maxAddr then none
  else some (joinBytes (s.byteAt s.pc.toNat) (s.byteAt (s.pc.toNat + 1)))

/-- The effect of an unknown word (R79, R204): `UNK <- 1`, `PC <- PC + 2`. -/
def unknownWord (s : State) : Result := advance { s with unk := true }

/-- The state with an instruction word placed where the next fetch reads it: not halted, since a halted core fetches nothing
(R206), with `PC` at 0x200 if no whole word lies at `PC`, and the two bytes stored there. -/
def placeFetchWord (w : Word) (s : State) : State :=
  let s := if s.halt then { s with halt := false, err := 0 } else s
  let s := if s.pc.toNat + 1 > Config.maxAddr then s.setPc 0x200 else s
  s.store s.pc.toNat (wordBytes w)

end Sys2Proof.Machine
end

