-- ==== Sys2Proof/Machine/Operands.lean ====
section
/-! DEFINITION. Operand forms: immediates (R73), effective addresses (R146), the key a register names (R174), the font address
(R142), the shifted operand (R134), the decimal digits (R143), the lowest key (R10). -/
namespace Sys2Proof.Machine

/-- `zext_16(nnn)`: a 12-bit immediate as an address or as a value of `I` (R73). -/
def zextAddr (nnn : Addr) : Word := nnn.setWidth 16

/-- The effective address of byte `k` of an access through `I`: the natural number `I + k`, never wrapped (R52, R146). -/
def effectiveAddr (s : State) (k : Nat) : Nat := s.i.toNat + k

/-- The low nibble of a byte, `v[3:0]`. -/
def lowNibble (u : Byte) : Nibble := u.extractLsb' 0 4

/-- Whether the key that `V[x]` names is down: bit `V[x][3:0]` of `KEYS` (R174). -/
def keyDown (s : State) (x : RegIdx) : Bool := s.keys.getLsbD (lowNibble (s.reg x)).toNat

/-- `lowest_set(k)`: the least `i` with `k[i] = 1`, for a non-zero `k` (R10). -/
def lowestSet (k : Word) : Byte := BitVec.ofNat 8 (((List.range 16).find? fun j => k.getLsbD j).getD 0)

/-- The address of the font sprite of a byte's low nibble, `FONT_BASE + 5 * d` with `FONT_BASE` 0 (R142). -/
def fontAddr (u : Byte) : Word := BitVec.ofNat 16 (0x000 + 5 * (lowNibble u).toNat)

/-- `SHIFT_USES_VY`: false for this hardware (R134, D11; log entry 9). -/
def shiftUsesVy : Bool := false

/-- The operand of a shift for either value of the parameter (R134). -/
def shiftOperandOf (usesVy : Bool) (s : State) (x y : RegIdx) : Byte := if usesVy then s.reg y else s.reg x

/-- The operand of a shift on this hardware (R134). -/
def shiftOperand (s : State) (x y : RegIdx) : Byte := shiftOperandOf shiftUsesVy s x y

/-- The decimal digits of a byte: hundreds, tens, ones (R143). -/
def bcdDigits (u : Byte) : List Byte :=
  [BitVec.ofNat 8 (u.toNat / 100), BitVec.ofNat 8 (u.toNat / 10 % 10), BitVec.ofNat 8 (u.toNat % 10)]

/-- The registers `V[0]` to `V[x]`, in ascending order (R144). -/
def regsUpTo (s : State) (x : RegIdx) : List Byte := s.v.toList.take (x.toNat + 1)

/-- `V[k] <- MEM[base + k]` for `k` from 0 to `x`; the registers above `x` keep their values (R145). -/
def loadRegsUpTo (s : State) (x : RegIdx) (base : Nat) : State :=
  s.setRegs (Vector.ofFn fun k => if k.val ≤ x.toNat then s.byteAt (base + k.val) else s.v[k])

end Sys2Proof.Machine
end

