-- ==== Sys2Proof/Machine/Flags.lean ====
section
/-! DEFINITION. The flag computations (R21, R132) and the order in which a flag-setting instruction writes (R133).  Results are
computed exactly on naturals and reduced modulo 256 (R9, R132). -/
namespace Sys2Proof.Machine

/-- A flag as a value of VF: 1 or 0 (R21). -/
def flagByte (c : Bool) : Byte := if c then 1 else 0

/-- The sum of two bytes modulo 256 (R121, R126). -/
def sumByte (a b : Byte) : Byte := BitVec.ofNat 8 ((a.toNat + b.toNat) % 256)

/-- The carry of an addition: `a + b > 255` (R126). -/
def carry (a b : Byte) : Bool := a.toNat + b.toNat > 255

/-- The difference of two bytes modulo 256 (R127). -/
def diffByte (a b : Byte) : Byte := BitVec.ofNat 8 ((a.toNat + 256 - b.toNat) % 256)

/-- The not-borrow of a subtraction: `a >= b` (R127). -/
def notBorrow (a b : Byte) : Bool := a.toNat ≥ b.toNat

/-- The result of a right shift by one, logical (R128). -/
def shrByte (u : Byte) : Byte := u >>> 1

/-- The bit a right shift shifts out (R128). -/
def shrFlag (u : Byte) : Bool := u.getLsbD 0

/-- The result of a left shift by one: `(s * 2) mod 256` (R130). -/
def shlByte (u : Byte) : Byte := BitVec.ofNat 8 (u.toNat * 2 % 256)

/-- The bit a left shift shifts out (R130). -/
def shlFlag (u : Byte) : Bool := u.getLsbD 7

/-- The end of a flag-setting instruction: the result goes to `V[x]`, then the flag to VF, so with `x = 15` VF ends as the
flag (R133). -/
def writeResultThenFlag (x : RegIdx) (result : Byte) (flag : Bool) (s : State) : Result :=
  advance ((s.setReg x result).setReg vf (flagByte flag))

end Sys2Proof.Machine
end

