-- ==== Sys2Proof/Machine/Alu.lean ====
section
/-! DEFINITION. Register load, arithmetic, logic, shift and random instructions (spec/41_alu.md). -/
namespace Sys2Proof.Machine

/-- `load-imm x, nn` (R120). -/
def execLoadImm (x : RegIdx) (nn : Byte) (s : State) : Result := advance (s.setReg x nn)

/-- `add-imm x, nn` (R121): VF is not written. -/
def execAddImm (x : RegIdx) (nn : Byte) (s : State) : Result := advance (s.setReg x (sumByte (s.reg x) nn))

/-- `assign-reg x, y` (R122). -/
def execAssignReg (x y : RegIdx) (s : State) : Result := advance (s.setReg x (s.reg y))

/-- `or-reg x, y` (R123): VF is not written (R132). -/
def execOrReg (x y : RegIdx) (s : State) : Result := advance (s.setReg x (s.reg x ||| s.reg y))

/-- `and-reg x, y` (R124): VF is not written (R132). -/
def execAndReg (x y : RegIdx) (s : State) : Result := advance (s.setReg x (s.reg x &&& s.reg y))

/-- `xor-reg x, y` (R125): VF is not written (R132). -/
def execXorReg (x y : RegIdx) (s : State) : Result := advance (s.setReg x (s.reg x ^^^ s.reg y))

/-- `add-reg x, y` (R126). -/
def execAddReg (x y : RegIdx) (s : State) : Result :=
  writeResultThenFlag x (sumByte (s.reg x) (s.reg y)) (carry (s.reg x) (s.reg y)) s

/-- `sub-reg x, y` (R127): `Vx - Vy`. -/
def execSubReg (x y : RegIdx) (s : State) : Result :=
  writeResultThenFlag x (diffByte (s.reg x) (s.reg y)) (notBorrow (s.reg x) (s.reg y)) s

/-- `shr-reg x, y` (R128). -/
def execShrReg (x y : RegIdx) (s : State) : Result :=
  writeResultThenFlag x (shrByte (shiftOperand s x y)) (shrFlag (shiftOperand s x y)) s

/-- `subn-reg x, y` (R129): `Vy - Vx`. -/
def execSubnReg (x y : RegIdx) (s : State) : Result :=
  writeResultThenFlag x (diffByte (s.reg y) (s.reg x)) (notBorrow (s.reg y) (s.reg x)) s

/-- `shl-reg x, y` (R130). -/
def execShlReg (x y : RegIdx) (s : State) : Result :=
  writeResultThenFlag x (shlByte (shiftOperand s x y)) (shlFlag (shiftOperand s x y)) s

/-- `random x, nn` for the drawn byte `rnd` (R131). -/
def randomWith (rnd : Byte) (x : RegIdx) (nn : Byte) (s : State) : Result :=
  advance ({ s with draws := s.draws + 1 }.setReg x (rnd &&& nn))

/-- `random x, nn` (R131): the byte is a free value, drawn anew at each `random` instruction (U3; log entry 2). -/
def execRandom (x : RegIdx) (nn : Byte) (s : State) : Result := randomWith (Config.randomByte s.draws) x nn s

end Sys2Proof.Machine
end

