-- ==== Sys2Proof/Machine/ControlFlow.lean ====
section
/-! DEFINITION. The control-flow instructions (spec/40_control_flow.md). -/
namespace Sys2Proof.Machine

/-- `return` (R100): `StackUnderflow` is tested first, then the range of the popped address; on either nothing is popped. -/
def execReturn (s : State) : Result := pop s fun t popped => checkRange t.toNat s (jumpTo t popped)

/-- `jump nnn` (R101). -/
def execJump (nnn : Addr) (s : State) : Result := jumpTo (zextAddr nnn) s

/-- `call nnn` (R102): the value pushed is the address after the `call`. -/
def execCall (nnn : Addr) (s : State) : Result := push (s.pc + 2) s (jumpTo (zextAddr nnn))

/-- `jump-offset nnn` (R103): the target is the exact sum `nnn + V[0]`. -/
def execJumpOffset (nnn : Addr) (s : State) : Result := redirect (nnn.toNat + (s.reg 0).toNat) s

/-- `skip-eq-imm x, nn` (R104). -/
def execSkipEqImm (x : RegIdx) (nn : Byte) (s : State) : Result := skipIf (s.reg x == nn) s

/-- `skip-ne-imm x, nn` (R105). -/
def execSkipNeImm (x : RegIdx) (nn : Byte) (s : State) : Result := skipIf (s.reg x != nn) s

/-- `skip-eq-reg x, y` (R106). -/
def execSkipEqReg (x y : RegIdx) (s : State) : Result := skipIf (s.reg x == s.reg y) s

/-- `skip-ne-reg x, y` (R107). -/
def execSkipNeReg (x y : RegIdx) (s : State) : Result := skipIf (s.reg x != s.reg y) s

end Sys2Proof.Machine
end

