-- ==== Sys2Proof/Machine/Display.lean ====
section
/-! DEFINITION. Display instructions (spec/43_display.md). -/
namespace Sys2Proof.Machine

/-- The pixel at column `px` and row `py`, `FB[px + 64 * py]` (R162); off the screen there is none and the answer is
false. -/
def Framebuffer.pixel (fb : Framebuffer) (px py : Nat) : Bool := if h : py < 32 then fb[py].getLsbD px else false

/-- The pixels of a screen row that a sprite byte with its left edge at column `x0` covers: bit 7 of the byte is the
leftmost (R162, G3), and what falls at column 64 or beyond is clipped (R161). -/
def spriteRow (x0 : Nat) (b : Byte) : BitVec 64 := b.reverse.setWidth 64 <<< x0

/-- One sprite row at screen row `py`: the pixels it covers are inverted; the second component says whether one of them
was on.  A row at 32 or beyond is clipped (R161). -/
def drawRow (fb : Framebuffer) (x0 py : Nat) (b : Byte) : Framebuffer × Bool :=
  if h : py < 32 then (fb.set py (fb[py] ^^^ spriteRow x0 b), (fb[py] &&& spriteRow x0 b) != 0) else (fb, false)

/-- The sprite rows from screen row `py` on, top row first, and whether any pixel went from on to off (R161). -/
def drawRows (fb : Framebuffer) (x0 py : Nat) : List Byte → Framebuffer × Bool
  | [] => (fb, false)
  | b :: bs =>
    let first := drawRow fb x0 py b
    let others := drawRows first.1 x0 (py + 1) bs
    (others.1, first.2 || others.2)

/-- `clear-screen` (R160): VF is not written. -/
def execClearScreen (s : State) : Result := advance { s with fb := Vector.replicate 32 0 }

/-- The effect of a sprite whose bytes are in range: the pixels, then VF, which is always written (R161). -/
def drawSpriteAt (x y : RegIdx) (n : Nibble) (s : State) : Result :=
  let drawn := drawRows s.fb (s.reg x).toNat (s.reg y).toNat (Memory.readBytes s.mem (effectiveAddr s 0) n.toNat)
  advance ({ s with fb := drawn.1 }.setReg vf (flagByte drawn.2))

/-- `draw-sprite x, y, n` (R161): all `n` bytes are range-checked before any pixel changes; with `n = 0` no address is
formed. -/
def execDrawSprite (x y : RegIdx) (n : Nibble) (s : State) : Result :=
  if n.toNat = 0 then drawSpriteAt x y n s
  else checkRange (effectiveAddr s (n.toNat - 1)) s (drawSpriteAt x y n s)

end Sys2Proof.Machine
end

