-- ==== Sys2Proof/Machine/IndexMemory.lean ====
section
/-! DEFINITION. Index-register and memory instructions (spec/42_index_memory.md).  No load or store changes `I` (R146). -/
namespace Sys2Proof.Machine

/-- `set-index nnn` (R140). -/
def execSetIndex (nnn : Addr) (s : State) : Result := advance { s with i := zextAddr nnn }

/-- `add-to-index x` (R141): modulo 65536; VF is not written. -/
def execAddToIndex (x : RegIdx) (s : State) : Result :=
  advance { s with i := BitVec.ofNat 16 ((s.i.toNat + (s.reg x).toNat) % 65536) }

/-- `font-char-address x` (R142): it reads no memory. -/
def execFontCharAddress (x : RegIdx) (s : State) : Result := advance { s with i := fontAddr (s.reg x) }

/-- `store-bcd x` (R143). -/
def execStoreBcd (x : RegIdx) (s : State) : Result :=
  checkRange (effectiveAddr s 2) s (advance (s.store (effectiveAddr s 0) (bcdDigits (s.reg x))))

/-- `store-registers x` (R144). -/
def execStoreRegisters (x : RegIdx) (s : State) : Result :=
  checkRange (effectiveAddr s x.toNat) s (advance (s.store (effectiveAddr s 0) (regsUpTo s x)))

/-- `load-registers x` (R145). -/
def execLoadRegisters (x : RegIdx) (s : State) : Result :=
  checkRange (effectiveAddr s x.toNat) s (advance (loadRegsUpTo s x (effectiveAddr s 0)))

end Sys2Proof.Machine
end

