-- ==== Sys2Proof/Machine/InputTimers.lean ====
section
/-! DEFINITION. Keypad and timer instructions (spec/44_input_timers.md). -/
namespace Sys2Proof.Machine

/-- `skip-key-pressed x` (R170). -/
def execSkipKeyPressed (x : RegIdx) (s : State) : Result := skipIf (keyDown s x) s

/-- `skip-key-not-pressed x` (R171). -/
def execSkipKeyNotPressed (x : RegIdx) (s : State) : Result := skipIf (!keyDown s x) s

/-- `get-delay-timer x` (R173). -/
def execGetDelayTimer (x : RegIdx) (s : State) : Result := advance (s.setReg x s.dt)

/-- Whether a key wait holds: no key is down (R172). -/
def keyWaitHolds (s : State) : Bool := s.keys == 0

/-- `wait-key x` (R172): with no key down nothing changes and the next fetch reads it again; otherwise the lowest-numbered
key. -/
def execWaitKey (x : RegIdx) (s : State) : Result :=
  if keyWaitHolds s then hold s else advance (s.setReg x (lowestSet s.keys))

/-- `set-delay-timer x` (R175). -/
def execSetDelayTimer (x : RegIdx) (s : State) : Result := advance { s with dt := s.reg x }

/-- `set-sound-timer x` (R176). -/
def execSetSoundTimer (x : RegIdx) (s : State) : Result := advance { s with st := s.reg x }

end Sys2Proof.Machine
end

