-- ==== Sys2Proof/Machine/Step.lean ====
section
/-! DEFINITION. One step of the machine: the operation `Execute` (R39) in the order of tests of R206. -/
namespace Sys2Proof.Machine

/-- `Execute` (R39): a halted core does nothing; then the fetch range, then the decoding, then the instruction. -/
def step (s : State) : Host.Outcome State Fault Refusal :=
  if s.halt then hold s
  else
    match fetch s with
    | none => raise .outOfRangeAddress s
    | some w =>
      match decode w with
      | none => unknownWord s
      | some i => exec i s

/-- The state with an opcode-table word placed where `step` fetches its next instruction. -/
def State.withFetchWord (s : State) (nbits w : Nat) : State := placeFetchWord (BitVec.ofNat 16 (w % 2 ^ nbits)) s

end Sys2Proof.Machine
end

