-- ==== Sys2Proof/WellFormed.lean ====
section
/-! DEFINITION. Well-formedness.  An `Instr` is well formed by its types; what can be ill formed is an instruction as
written, a name and a list of numbers (spec/30_encoding.md R81): "an immediate ... must fit its field ...; an
assembler refuses one that does not fit and never truncates".  `SourceInstr.check` makes exactly these checks and
names the one that fails. -/
namespace Sys2Proof

/-- An instruction as written: its name of R75 and its operands as numbers (R81). -/
structure SourceInstr where
  name : String
  operands : List Nat
  deriving DecidableEq, Repr

/-- Why a written instruction is refused (R81). -/
inductive SourceError where
  /-- the name is none of the 34 of R75 -/
  | unknownName
  /-- the number of operands is not the row's -/
  | wrongOperandCount
  /-- a register index above 15 -/
  | registerTooLarge
  /-- `nn` above 255 -/
  | byteTooLarge
  /-- `nnn` above 0xFFF -/
  | addressTooLarge
  /-- `n` above 15 -/
  | nibbleTooLarge
  deriving DecidableEq, Repr

/-- A number that must fit `w` bits; `e` is the check's name when it does not. -/
def fitOperand (w : Nat) (e : SourceError) (v : Nat) : Except SourceError (BitVec w) :=
  if v < 2 ^ w then .ok (BitVec.ofNat w v) else .error e

/-- No operand (format FIXED, R72). -/
def fixedForm (i : Instr) : List Nat → Except SourceError Instr
  | [] => .ok i
  | _ => .error .wrongOperandCount

/-- One operand `nnn` (format NNN, R72). -/
def addrForm (mk : Addr → Instr) : List Nat → Except SourceError Instr
  | [a] => (fitOperand 12 .addressTooLarge a).map mk
  | _ => .error .wrongOperandCount

/-- Operands `x, nn` (format XNN, R72). -/
def regByteForm (mk : RegIdx → Byte → Instr) : List Nat → Except SourceError Instr
  | [x, nn] => (fitOperand 4 .registerTooLarge x).bind fun x => (fitOperand 8 .byteTooLarge nn).map (mk x)
  | _ => .error .wrongOperandCount

/-- Operands `x, y` (format XY, R72). -/
def regRegForm (mk : RegIdx → RegIdx → Instr) : List Nat → Except SourceError Instr
  | [x, y] => (fitOperand 4 .registerTooLarge x).bind fun x => (fitOperand 4 .registerTooLarge y).map (mk x)
  | _ => .error .wrongOperandCount

/-- Operands `x, y, n` (format XYN, R72). -/
def regRegNibbleForm (mk : RegIdx → RegIdx → Nibble → Instr) : List Nat → Except SourceError Instr
  | [x, y, n] =>
    (fitOperand 4 .registerTooLarge x).bind fun x =>
      (fitOperand 4 .registerTooLarge y).bind fun y => (fitOperand 4 .nibbleTooLarge n).map (mk x y)
  | _ => .error .wrongOperandCount

/-- One operand `x` (format X, R72). -/
def regForm (mk : RegIdx → Instr) : List Nat → Except SourceError Instr
  | [x] => (fitOperand 4 .registerTooLarge x).map mk
  | _ => .error .wrongOperandCount

/-- The row of R75 with a given name, as the form of its operands. -/
def formOf (name : String) : Option (List Nat → Except SourceError Instr) :=
  [ ("clear-screen", fixedForm .clearScreen), ("return", fixedForm .ret), ("jump", addrForm .jump),
    ("call", addrForm .call), ("skip-eq-imm", regByteForm .skipEqImm), ("skip-ne-imm", regByteForm .skipNeImm),
    ("skip-eq-reg", regRegForm .skipEqReg), ("load-imm", regByteForm .loadImm), ("add-imm", regByteForm .addImm),
    ("assign-reg", regRegForm .assignReg), ("or-reg", regRegForm .orReg), ("and-reg", regRegForm .andReg),
    ("xor-reg", regRegForm .xorReg), ("add-reg", regRegForm .addReg), ("sub-reg", regRegForm .subReg),
    ("shr-reg", regRegForm .shrReg), ("subn-reg", regRegForm .subnReg), ("shl-reg", regRegForm .shlReg),
    ("skip-ne-reg", regRegForm .skipNeReg), ("set-index", addrForm .setIndex), ("jump-offset", addrForm .jumpOffset),
    ("random", regByteForm .random), ("draw-sprite", regRegNibbleForm .drawSprite),
    ("skip-key-pressed", regForm .skipKeyPressed), ("skip-key-not-pressed", regForm .skipKeyNotPressed),
    ("get-delay-timer", regForm .getDelayTimer), ("wait-key", regForm .waitKey),
    ("set-delay-timer", regForm .setDelayTimer), ("set-sound-timer", regForm .setSoundTimer),
    ("add-to-index", regForm .addToIndex), ("font-char-address", regForm .fontCharAddress),
    ("store-bcd", regForm .storeBcd), ("store-registers", regForm .storeRegisters),
    ("load-registers", regForm .loadRegisters) ].lookup name

/-- The instruction a written instruction stands for, or the check it fails (R81). -/
def SourceInstr.check (t : SourceInstr) : Except SourceError Instr :=
  match formOf t.name with
  | some form => form t.operands
  | none => .error .unknownName

/-- A written instruction is well formed when every check passes. -/
def SourceInstr.wellFormed (t : SourceInstr) : Bool := t.check.toBool

/-- How an instruction is written (R81). -/
def Instr.toSource (i : Instr) : SourceInstr := ⟨i.name, i.operands⟩

end Sys2Proof
end

