-- ==== Sys2Proof/Assembler.lean ====
section
/-! DEFINITION. The assembly syntax of spec/30_encoding.md section 4 as abstract syntax (R81, R82): operands, labels, the
directive `.byte`, the customary mnemonics as synonyms, and the image they stand for.  Notation only: the machine does
not depend on this file. -/
namespace Sys2Proof.Assembler

/-- An operand as written (R81): a register by its V-name, a number, a label, or a symbol of a customary mnemonic such as
`I`, `DT`, `ST`, `K`, `F`, `B`, `[I]` (R75, third column). -/
inductive Operand where
  | v (k : Nat)
  | num (k : Nat)
  | label (l : String)
  | sym (name : String)
  deriving DecidableEq, Repr

/-- A line of a program. -/
inductive Line where
  | label (l : String)
  | instr (name : String) (operands : List Operand)
  | byte (bs : List Nat)
  deriving DecidableEq, Repr

/-- Why a program is refused. -/
inductive AsmError where
  | operand (e : SourceError)
  | undefinedLabel (l : String)
  | labelNotAnAddress (l : String)
  | registerNotExpected
  | symbolNotExpected (name : String)
  | byteTooLarge
  deriving DecidableEq, Repr

/-- A customary mnemonic and its operands as the name and operands of R75 (R82).  `SHR Vx` and `SHL Vx` without `Vy` are
taken with `y = x` (log entry 26, DESIGN CHOICE).  Where R75 has several rows under one mnemonic, and for `SHR` and `SHL`
with one operand, a register is recognised by its V-name only, so `LD DT, 1` is refused; the other mnemonics take an index
too (log entry 29, DESIGN CHOICE). -/
def fromCustomary (name : String) (ops : List Operand) : String × List Operand :=
  match name, ops with
  | "CLS", [] => ("clear-screen", [])
  | "RET", [] => ("return", [])
  | "JP", [.v 0, a] => ("jump-offset", [a])
  | "JP", [a] => ("jump", [a])
  | "CALL", [a] => ("call", [a])
  | "SE", [.v x, .v y] => ("skip-eq-reg", [.v x, .v y])
  | "SE", [.v x, nn] => ("skip-eq-imm", [.v x, nn])
  | "SNE", [.v x, .v y] => ("skip-ne-reg", [.v x, .v y])
  | "SNE", [.v x, nn] => ("skip-ne-imm", [.v x, nn])
  | "LD", [.v x, .v y] => ("assign-reg", [.v x, .v y])
  | "LD", [.sym "I", a] => ("set-index", [a])
  | "LD", [.v x, .sym "DT"] => ("get-delay-timer", [.v x])
  | "LD", [.v x, .sym "K"] => ("wait-key", [.v x])
  | "LD", [.sym "DT", .v x] => ("set-delay-timer", [.v x])
  | "LD", [.sym "ST", .v x] => ("set-sound-timer", [.v x])
  | "LD", [.sym "F", .v x] => ("font-char-address", [.v x])
  | "LD", [.sym "B", .v x] => ("store-bcd", [.v x])
  | "LD", [.sym "[I]", .v x] => ("store-registers", [.v x])
  | "LD", [.v x, .sym "[I]"] => ("load-registers", [.v x])
  | "LD", [.v x, nn] => ("load-imm", [.v x, nn])
  | "ADD", [.v x, .v y] => ("add-reg", [.v x, .v y])
  | "ADD", [.sym "I", .v x] => ("add-to-index", [.v x])
  | "ADD", [.v x, nn] => ("add-imm", [.v x, nn])
  | "OR", ops => ("or-reg", ops)
  | "AND", ops => ("and-reg", ops)
  | "XOR", ops => ("xor-reg", ops)
  | "SUB", ops => ("sub-reg", ops)
  | "SHR", [.v x] => ("shr-reg", [.v x, .v x])
  | "SHR", ops => ("shr-reg", ops)
  | "SUBN", ops => ("subn-reg", ops)
  | "SHL", [.v x] => ("shl-reg", [.v x, .v x])
  | "SHL", ops => ("shl-reg", ops)
  | "RND", ops => ("random", ops)
  | "DRW", ops => ("draw-sprite", ops)
  | "SKP", ops => ("skip-key-pressed", ops)
  | "SKNP", ops => ("skip-key-not-pressed", ops)
  | name, ops => (name, ops)

/-- How many leading operands of a row are registers (R72, R75): the rest are immediates. -/
def registerOperands (name : String) : Nat :=
  if name ∈ ["jump", "call", "set-index", "jump-offset"] then 0
  else if name ∈ ["skip-eq-imm", "skip-ne-imm", "load-imm", "add-imm", "random"] then 1
  else 2

/-- Whether the row's operand is an address, the only place a label may stand (R81: "a label may stand for `nnn`"). -/
def takesLabel (name : String) : Bool := registerOperands name == 0

/-- The bytes a line takes. -/
def lineLength : Line → Nat
  | .label _ => 0
  | .instr _ _ => 2
  | .byte bs => bs.length

/-- The labels with their values: "the address of the next byte" (R81), in the order of the lines; a label defined twice is
in the list twice (log entry 30, DESIGN CHOICE). -/
def labelValues : Nat → List Line → List (String × Nat)
  | _, [] => []
  | at', .label l :: ls => (l, at') :: labelValues at' ls
  | at', ln :: ls => labelValues (at' + lineLength ln) ls

/-- The number an operand of the row `name` in a place that is or is not a register's stands for (R81).  A label defined
twice stands for its first address (log entry 30, DESIGN CHOICE); a V-name in an immediate's place, a symbol, and a label in
a place that is not `nnn`'s are refused (log entry 31, DESIGN CHOICE). -/
def operandValue (labels : List (String × Nat)) (name : String) (isRegister : Bool) : Operand → Except AsmError Nat
  | .num k => .ok k
  | .v k => if isRegister then .ok k else .error .registerNotExpected
  | .sym n => .error (.symbolNotExpected n)
  | .label l =>
    if takesLabel name then
      match labels.lookup l with
      | some a => .ok a
      | none => .error (.undefinedLabel l)
    else .error (.labelNotAnAddress l)

/-- The numbers of an operand list whose first operand has index `at'` in it. -/
def operandValues (labels : List (String × Nat)) (name : String) : Nat → List Operand → Except AsmError (List Nat)
  | _, [] => .ok []
  | at', o :: os =>
    (operandValue labels name (at' < registerOperands name) o).bind fun k =>
      (operandValues labels name (at' + 1) os).map (k :: ·)

/-- The bytes of `.byte` (R82); a number above 255 is refused (log entry 31, DESIGN CHOICE). -/
def byteValues : List Nat → Except AsmError (List Byte)
  | [] => .ok []
  | b :: bs => if b < 256 then (byteValues bs).map (BitVec.ofNat 8 b :: ·) else .error .byteTooLarge

/-- The bytes of a line (R81, R82). -/
def lineBytes (labels : List (String × Nat)) : Line → Except AsmError (List Byte)
  | .label _ => .ok []
  | .byte bs => byteValues bs
  | .instr name ops =>
    let (row, ops) := fromCustomary name ops
    (operandValues labels row 0 ops).bind fun ks =>
      match (SourceInstr.mk row ks).check with
      | .ok i => .ok (encodeBytes i)
      | .error e => .error (.operand e)

/-- The bytes of the lines in order. -/
def linesBytes (labels : List (String × Nat)) : List Line → Except AsmError (List Byte)
  | [] => .ok []
  | ln :: ls => (lineBytes labels ln).bind fun bs => (linesBytes labels ls).map (bs ++ ·)

/-- The image of a program: the byte string the host passes to `Load`; the first byte is at 0x200 (R81). -/
def assemble (lines : List Line) : Except AsmError (List Byte) := linesBytes (labelValues 0x200 lines) lines

end Sys2Proof.Assembler
end

