-- ==== Sys2Proof/Machine/Operations.lean ====
section
/-! DEFINITION. The five operations by which the host drives the core (spec/00_scope.md section 4), what each returns to it, any
schedule of them, and the outputs the host reads (R34). -/
namespace Sys2Proof.Machine

/-! ## `Reset`, `Load`, `RefreshInput`, `Tick` -/

/-- The elements that `Reset` leaves unspecified, each any value (R36): `RESET_FB`, `RESET_MEM` (the bytes of the addresses
0x050 to 0xFFF, 0x00 where the list ends), `RESET_STACK`, `RESET_KEYS`; and `draws`, where the model's own count of
random draws goes on (log entry 2). -/
structure Unspecified where
  fb : Framebuffer
  upper : List Byte
  stack : Vector Word 16
  keys : Word
  draws : Nat
  deriving DecidableEq, Repr

/-- The values that `State.reset` takes for the unspecified elements (log entries 3 and 4, DESIGN CHOICE). -/
def Unspecified.zero : Unspecified := ⟨Vector.replicate 32 0, [], Vector.replicate 16 0, 0, 0⟩

/-- The memory after `Reset` (R230): the font at 0x000 to 0x04F, and the given bytes from 0x050 on, as many as there is
room for. -/
def resetMemory (u : Unspecified) : List Host.Cell := Memory.writeBytes [] 0x050 (u.upper.take (0x1000 - 0x050))

/-- `Reset` (R230), for any value of what it leaves unspecified.  Nothing of the state before it is kept (R231). -/
def opReset (u : Unspecified) : State :=
  { State.reset with fb := u.fb, mem := resetMemory u, stack := u.stack, keys := u.keys, draws := u.draws }

/-- What `Load` returns. -/
inductive LoadResult where
  | ok
  | tooLarge
  deriving DecidableEq, Repr

/-- `Load(bytes)` (R233, R234): the image at 0x200 and nothing else, or `LoadTooLarge` with no byte written and the core
halted. -/
def opLoad (bytes : List Byte) (s : State) : State × LoadResult :=
  if Config.loadBase + bytes.length > 0x1000 then (s.halted .loadTooLarge, .tooLarge)
  else (s.store Config.loadBase bytes, .ok)

/-- `RefreshInput(k)` (R38). -/
def opRefreshInput (k : Word) (s : State) : State := { s with keys := k }

/-- A timer counted down by one, stopping at zero (R210). -/
def countDown (t : Byte) : Byte := if t = 0 then 0 else t - 1

/-- `Tick` (R210). -/
def opTick (s : State) : State := { s with dt := countDown s.dt, st := countDown s.st }

/-! ## `Execute(rnd)` and its outcome (R39, R40) -/

/-- The outcome of `Execute` (R40). -/
inductive ExecOutcome where
  /-- an instruction completed -/
  | ok
  /-- the instruction was `wait-key` and no key is down -/
  | waiting
  /-- the word matched no instruction -/
  | unknown (w : Word)
  /-- a fatal error -/
  | fault (e : ErrorKind)
  /-- the core was already halted -/
  | halted
  deriving DecidableEq, Repr

/-- An instruction with the random byte given as the argument of `Execute` (R39); it is "ignored by all others". -/
def execWith (rnd : Byte) (i : Instr) (s : State) : Result :=
  match i with
  | .random x nn => randomWith rnd x nn s
  | i => exec i s

/-- The outcome of an instruction run from `s`, not halted, to `t`: a fault is what halts the core (R205), and what holds is a
key wait (R172). -/
def instrOutcome (i : Instr) (s t : State) : ExecOutcome :=
  match t.halt, ErrorKind.ofCode t.err, i with
  | true, some e, _ => .fault e
  | _, _, .waitKey _ => if keyWaitHolds s then .waiting else .ok
  | _, _, _ => .ok

/-- A result paired with what the host is told of it. -/
def Result.surface (r : Result) (told : State → ExecOutcome) : Host.Outcome (State × ExecOutcome) Fault Refusal :=
  match r with
  | .next t => .next (t, told t)
  | .fault f => .fault f
  | .refused f => .refused f

/-- `Execute(rnd)` with its outcome (R39, R40); `step` is this operation with the model's free random byte. -/
def execute (rnd : Byte) (s : State) : Host.Outcome (State × ExecOutcome) Fault Refusal :=
  if s.halt then Result.surface (hold s) fun _ => .halted
  else
    match fetch s with
    | none => Result.surface (raise .outOfRangeAddress s) fun _ => .fault .outOfRangeAddress
    | some w =>
      match decode w with
      | none => Result.surface (unknownWord s) fun _ => .unknown w
      | some i => Result.surface (execWith rnd i s) (instrOutcome i s)

/-- `Cycle(k, rnd)`: `RefreshInput(k)` and then `Execute(rnd)` (R41). -/
def cycle (k : Word) (rnd : Byte) (s : State) : Host.Outcome (State × ExecOutcome) Fault Refusal :=
  execute rnd (opRefreshInput k s)

/-! ## Schedules (R5, R211): "the order and the number of operations are the host's choice" -/

/-- One operation of the host with its arguments. -/
inductive Op where
  | reset (u : Unspecified)
  | load (bytes : List Byte)
  | refreshInput (k : Word)
  | execute (rnd : Byte)
  | tick
  deriving DecidableEq, Repr

/-- What an operation returns to the host. -/
inductive OpAnswer where
  | done
  | loaded (r : LoadResult)
  | executed (o : ExecOutcome)
  deriving DecidableEq, Repr

/-- One operation on the state. -/
def apply (op : Op) (s : State) : Host.Outcome (State × OpAnswer) Fault Refusal :=
  match op with
  | .reset u => .next (opReset u, .done)
  | .load bytes => .next ((opLoad bytes s).1, .loaded (opLoad bytes s).2)
  | .refreshInput k => .next (opRefreshInput k s, .done)
  | .execute rnd =>
    match execute rnd s with
    | .next (t, o) => .next (t, .executed o)
    | .fault f => .fault f
    | .refused f => .refused f
  | .tick => .next (opTick s, .done)

/-- A schedule of operations, first one first, with all their answers. -/
def runOps : List Op → State → Host.Outcome (State × List OpAnswer) Fault Refusal
  | [], s => .next (s, [])
  | op :: ops, s =>
    match apply op s with
    | .fault f => .fault f
    | .refused f => .refused f
    | .next (t, a) =>
      match runOps ops t with
      | .next (u, answers) => .next (u, a :: answers)
      | .fault f => .fault f
      | .refused f => .refused f

/-- The core from power-on (R231): "Before the first `Reset` the core has no defined state, and no other operation may be
applied"; `none` is that no-state, and the operation is then not performed. -/
def applyFromPowerOn (op : Op) : Option State → Option (Host.Outcome (State × OpAnswer) Fault Refusal)
  | some s => some (apply op s)
  | none =>
    match op with
    | .reset u => some (.next (opReset u, .done))
    | _ => none

/-- The boot order (R236): `Reset`, then `Load`, and on only if it answers `Ok`. -/
def boot (u : Unspecified) (image : List Byte) : Option State :=
  match opLoad image (opReset u) with
  | (s, .ok) => some s
  | (_, .tooLarge) => none

/-! ## Outputs (R34) -/

/-- The framebuffer read port: `FB[k]`, `k` from 0 to 2047 (R34, R162). -/
def State.fbRead (s : State) (k : Nat) : Bool := s.fb.pixel (k % 64) (k / 64)

/-- `sound_on = (ST != 0)` (R34). -/
def State.soundOn (s : State) : Bool := s.st != 0

/-- The status outputs `HALT`, `ERR`, `UNK` (R34). -/
def State.status (s : State) : Bool × BitVec 3 × Bool := (s.halt, s.err, s.unk)

end Sys2Proof.Machine
end

