-- ==== Sys2Proof/Safety.lean ====
section
/-! DEFINITION. What holds of every state that operations reach (`Inv`), what a safe run is, and the end of a run. -/
namespace Sys2Proof.Safety
open Sys2Proof.Machine

/-- `ERR` is 0 when `HALT` is 0, and otherwise the code of a fatal error: 1, 2, 3 or 5 (R29, R200). -/
abbrev ErrorStatusLegal (s : State) : Prop :=
  if s.halt then s.err = 1 ∨ s.err = 2 ∨ s.err = 3 ∨ s.err = 5 else s.err = 0

/-- Every entry in use holds a value that a `call` can push: at most 0x1000 (R102, R201). -/
abbrev ReturnAddressesInRange (s : State) : Prop :=
  ∀ k : Fin 16, k.val < s.sp.val → (s.stack[k]).toNat ≤ 0x1000

/-- The invariant: memory in its canonical form, the error status legal, `PC` at most 0x1002 (R24), and the return
addresses in range.  (`SP <= 16`, R25, holds by the type of `SP`.) -/
abbrev Inv (s : State) : Prop :=
  Memory.wf s.mem = true ∧ ErrorStatusLegal s ∧ s.pc.toNat ≤ 0x1002 ∧ ReturnAddressesInRange s

/-- A state in which the core still makes progress: no fatal error (R207). -/
abbrev Running (s : State) : Prop := s.halt = false

/-- A run of `k` steps is safe when it meets no fatal error and no unknown word. -/
def SafeFor : Nat → State → Prop
  | 0, s => Running s ∧ s.unk = false
  | k + 1, s => Running s ∧ s.unk = false ∧ ∃ t, step s = .next t ∧ SafeFor k t

/-- The end of a run as this model defines it (R237, D30; log entry 28): the core is not halted and the instruction at
`PC` is a `jump` to `PC`. -/
def AtEnd (s : State) : Prop :=
  Running s ∧ ∃ w nnn, fetch s = some w ∧ decode w = some (.jump nnn) ∧ zextAddr nnn = s.pc

end Sys2Proof.Safety
end

