-- ==== Sys2Proof/Certificates/Slice0/Obligations.lean ====
section
/-! DEFINITION. The statements for the provers.  Each docstring names the rules it formalises; where a clause rests on a choice
that the spec marks as its own (a decision D<n>, general knowledge G<n>) or on one of this model's, it names the log
entry. -/
namespace Sys2Proof.Claims
open Sys2Proof.Machine

/-! ## What an instruction leaves unchanged -/

/-- Every byte of memory reads as before. -/
def SameMemory (s t : State) : Prop := ∀ a, t.byteAt a = s.byteAt a

/-- Every byte of memory outside the `n` bytes from `base` on reads as before. -/
def SameMemoryOutside (base n : Nat) (s t : State) : Prop := ∀ a, a < base ∨ base + n ≤ a → t.byteAt a = s.byteAt a

/-- Nothing but `PC` changes. -/
def OnlyPc (s t : State) : Prop := t = { s with pc := t.pc } ∧ SameMemory s t

/-- Nothing but the general registers and `PC` changes. -/
def OnlyVAndPc (s t : State) : Prop := t = { s with v := t.v, pc := t.pc } ∧ SameMemory s t

/-- Nothing but `I` and `PC` changes. -/
def OnlyIAndPc (s t : State) : Prop := t = { s with i := t.i, pc := t.pc } ∧ SameMemory s t

/-- Register `x` holds `u` and every other register is as before. -/
def OnlyReg (x : RegIdx) (u : Byte) (s t : State) : Prop := ∀ r, t.reg r = if r = x then u else s.reg r

/-- The result of a flag-setting instruction: VF is the flag, written last; `V[x]` is the result unless `x` is VF; every
other register is as before. -/
def ResultAndFlag (x : RegIdx) (result : Nat) (flag : Prop) [Decidable flag] (s t : State) : Prop :=
  t.reg 15 = (if flag then 1 else 0) ∧ (x ≠ 15 → (t.reg x).toNat = result) ∧
    ∀ r, r ≠ x → r ≠ 15 → t.reg r = s.reg r

/-! ## Which instructions may write an element (R21, R37) -/

/-- The destination `x` of an instruction that writes `V[x]` and no flag. -/
def plainDestination : Instr → Option RegIdx
  | .loadImm x _ | .addImm x _ | .assignReg x _ | .orReg x _ | .andReg x _ | .xorReg x _ | .random x _
  | .getDelayTimer x | .waitKey x => some x
  | _ => none

/-- The destination `x` of a flag-setting register instruction. -/
def flagDestination : Instr → Option RegIdx
  | .addReg x _ | .subReg x _ | .shrReg x _ | .subnReg x _ | .shlReg x _ => some x
  | _ => none

/-- The six instructions that write 0 or 1 to VF (R21). -/
def setsFlag : Instr → Bool
  | .addReg _ _ | .subReg _ _ | .shrReg _ _ | .subnReg _ _ | .shlReg _ _ | .drawSprite _ _ _ => true
  | _ => false

/-- The instructions that may write register `r`. -/
def mayWriteReg (i : Instr) (r : RegIdx) : Prop :=
  plainDestination i = some r ∨ flagDestination i = some r ∨ (setsFlag i = true ∧ r = 15) ∨
    ∃ x, i = .loadRegisters x ∧ r.toNat ≤ x.toNat

/-- The instructions that may write `I`. -/
def mayWriteI : Instr → Bool
  | .setIndex _ | .addToIndex _ | .fontCharAddress _ => true
  | _ => false

/-- The instructions that may write `SP` and `STACK`. -/
def mayWriteStack : Instr → Bool
  | .call _ | .ret => true
  | _ => false

/-- The instructions that may write a pixel. -/
def mayWriteFb : Instr → Bool
  | .clearScreen | .drawSprite _ _ _ => true
  | _ => false

/-- The instructions that may write memory. -/
def mayWriteMem : Instr → Bool
  | .storeBcd _ | .storeRegisters _ => true
  | _ => false

/-- The six skips of R24. -/
def isSkip : Instr → Bool
  | .skipEqImm _ _ | .skipNeImm _ _ | .skipEqReg _ _ | .skipNeReg _ _ | .skipKeyPressed _ | .skipKeyNotPressed _ => true
  | _ => false

/-- Where an instruction raises `OutOfRangeAddress` (R201). -/
def raisesOutOfRange (s : State) : Instr → Prop
  | .ret => ∃ t, 0 < s.sp.val ∧ s.stack[s.sp.val - 1]? = some t ∧ 0xFFF < t.toNat
  | .jumpOffset nnn => 0xFFF < nnn.toNat + (s.reg 0).toNat
  | .drawSprite _ _ n => 0 < n.toNat ∧ 0xFFF < s.i.toNat + n.toNat - 1
  | .storeBcd _ => 0xFFF < s.i.toNat + 2
  | .storeRegisters x | .loadRegisters x => 0xFFF < s.i.toNat + x.toNat
  | _ => False

/-- Whether the sprite of `draw-sprite x, y, n` has a 1 bit at column `px` and row `py` of the screen: row `r` of the
sprite, the byte at `I + r`, lies at screen row `V[y] + r`, and bit `7 - c` of it at screen column `V[x] + c`, with exact
sums (R161, R162). -/
def spriteCovers (x y : RegIdx) (n : Nibble) (s : State) (px py : Nat) : Prop :=
  ∃ r c, r < n.toNat ∧ c < 8 ∧ px = (s.reg x).toNat + c ∧ py = (s.reg y).toNat + r ∧
    (s.byteAt (s.i.toNat + r)).getLsbD (7 - c) = true

/-- The sprite bytes of `draw-sprite x, y, n` are in range. -/
def spriteInRange (n : Nibble) (s : State) : Prop := n.toNat = 0 ∨ s.i.toNat + n.toNat - 1 ≤ 0xFFF

/-- Calls to the given targets one after the other, each run from the state the one before it left. -/
def runCalls : List Addr → State → Result
  | [], s => .next s
  | nnn :: rest, s =>
    match exec (.call nnn) s with
    | .next t => runCalls rest t
    | r => r

/-- `n` ticks one after the other. -/
def ticks : Nat → State → State
  | 0, s => s
  | n + 1, s => ticks n (opTick s)

end Sys2Proof.Claims

open Sys2Proof Sys2Proof.Machine Sys2Proof.Safety Sys2Proof.Claims

/-! ## Encoding -/

/-- R75, R76, R81: decoding the word of an instruction gives it back, every operand at every value.  The opcode values are
general knowledge (log entry 5). -/
def Obligations.DecodeOfEncodeIsTheInstruction : Prop := ∀ i : Instr, decode (encode i) = some i

/-- R71, R75, R81: each word has one meaning, so encoding what a word decodes to gives the word (log entry 5). -/
def Obligations.EncodeOfDecodeIsTheWord : Prop := ∀ (w : Word) (i : Instr), decode w = some i → encode i = w

/-- R75: "a word `w` is this instruction exactly when `w and mask = match`": the decoding procedure of R76 and the table
agree on every word and every name (log entry 5). -/
def Obligations.DecodeAgreesWithTheOpcodeTable : Prop :=
  ∀ (w : Word) (name : String),
    (∃ i, decode w = some i ∧ i.name = name) ↔ ∃ r ∈ opcodeTable, r.name = name ∧ rowMatches r w = true

/-- R76: no two rows of the opcode table match the same word (log entry 5). -/
def Obligations.OpcodeRowsNeverOverlap : Prop :=
  ∀ (w : Word), ∀ r₁ ∈ opcodeTable, ∀ r₂ ∈ opcodeTable, rowMatches r₁ w = true → rowMatches r₂ w = true → r₁ = r₂

/-- R80: the unknown words, family by family (log entries 5 and 11). -/
def Obligations.UnknownWordsAreTheListedOnes : Prop :=
  ∀ w : Word, decode w = none ↔
    (opField w = 0x0 ∧ w ≠ 0x00E0 ∧ w ≠ 0x00EE) ∨
    (opField w = 0x5 ∧ nField w ≠ 0) ∨
    (opField w = 0x8 ∧ nField w ∈ [0x8#4, 0x9#4, 0xA#4, 0xB#4, 0xC#4, 0xD#4, 0xF#4]) ∨
    (opField w = 0x9 ∧ nField w ≠ 0) ∨
    (opField w = 0xE ∧ nnField w ∉ [0x9E#8, 0xA1#8]) ∨
    (opField w = 0xF ∧ nnField w ∉ [0x07#8, 0x0A#8, 0x15#8, 0x18#8, 0x1E#8, 0x29#8, 0x33#8, 0x55#8, 0x65#8])

/-- R75, R80: a word of every leading nibble, written out from the patterns of the table, decodes to its instruction, and
unknown words decode to none (spec/95_test_vectors.md part 2; the opcode values are general knowledge, G1, and that the
trailing bits of a fixed pattern must match is D27; log entries 5 and 11). -/
def Obligations.SampleWordsDecode : Prop :=
  decode 0x00E0 = some .clearScreen ∧ decode 0x00EE = some .ret ∧ decode 0x00E1 = none ∧ decode 0x0000 = none ∧
  decode 0x1ABC = some (.jump 0xABC) ∧ decode 0x2300 = some (.call 0x300) ∧
  decode 0x3A7F = some (.skipEqImm 10 0x7F) ∧ decode 0x4310 = some (.skipNeImm 3 0x10) ∧
  decode 0x5AB0 = some (.skipEqReg 10 11) ∧ decode 0x5AB1 = none ∧ decode 0x6155 = some (.loadImm 1 0x55) ∧
  decode 0x7101 = some (.addImm 1 0x01) ∧ decode 0x8AB4 = some (.addReg 10 11) ∧
  decode 0x8AB8 = none ∧ decode 0x8ABE = some (.shlReg 10 11) ∧ decode 0x9AB0 = some (.skipNeReg 10 11) ∧
  decode 0xAFFF = some (.setIndex 0xFFF) ∧ decode 0xBF01 = some (.jumpOffset 0xF01) ∧
  decode 0xC30F = some (.random 3 0x0F) ∧ decode 0xD12F = some (.drawSprite 1 2 15) ∧
  decode 0xE1A1 = some (.skipKeyNotPressed 1) ∧ decode 0xFA65 = some (.loadRegisters 10) ∧ decode 0xFFFF = none

/-- R81: every instruction, as written, passes the checks on operands and stands for itself (log entry 26). -/
def Obligations.WrittenInstructionStandsForItself : Prop := ∀ i : Instr, i.toSource.check = .ok i

/-- R81: an operand that does not fit is refused and never truncated: what the checks accept has the name and the operands as
written (log entry 26). -/
def Obligations.SourceCheckNeverTruncates : Prop :=
  ∀ (t : SourceInstr) (i : Instr), t.check = .ok i → i.name = t.name ∧ i.operands = t.operands

/-! ## The step -/

/-- R39: a step of a core that is not halted, with the bytes at `PC` in range and decoding to an instruction, is that
instruction's effect, and nothing is added around it. -/
def Obligations.StepRunsTheDecodedInstruction : Prop :=
  ∀ (s : State) (i : Instr), s.halt = false → s.pc.toNat ≤ 0xFFE →
    decode (joinBytes (s.byteAt s.pc.toNat) (s.byteAt (s.pc.toNat + 1))) = some i → step s = exec i s

/-- R53: the fetch forms the word with the byte at the lower address as the high byte, and requires `PC <= 0xFFE`;
otherwise it raises `OutOfRangeAddress` and no byte is read (the code and what the error leaves are D18 and D20; log entry
10). -/
def Obligations.FetchIsBigEndianAndRangeChecked : Prop :=
  ∀ s : State,
    (s.pc.toNat ≤ 0xFFE → ∃ w, fetch s = some w ∧ w.extractLsb' 8 8 = s.byteAt s.pc.toNat ∧
      w.extractLsb' 0 8 = s.byteAt (s.pc.toNat + 1)) ∧
    (0xFFE < s.pc.toNat → fetch s = none ∧ (s.halt = false → step s = .next { s with halt := true, err := 1 }))

/-- R79, R204: an unknown word sets `UNK`, advances `PC` by 2 and changes nothing else (D19; log entry 11). -/
def Obligations.UnknownWordSetsUnkAndAdvances : Prop :=
  ∀ (s : State), s.halt = false → s.pc.toNat ≤ 0xFFE →
    decode (joinBytes (s.byteAt s.pc.toNat) (s.byteAt (s.pc.toNat + 1))) = none →
    step s = .next { s with unk := true, pc := s.pc + 2 } ∧
      ∀ rnd, execute rnd s = .next ({ s with unk := true, pc := s.pc + 2 },
        .unknown (joinBytes (s.byteAt s.pc.toNat) (s.byteAt (s.pc.toNat + 1))))

/-- R207: while halted, `Execute` changes nothing and answers `Halted`, however often it is called (D21; log entry 19). -/
def Obligations.HaltedCoreDoesNothing : Prop :=
  ∀ s : State, s.halt = true → (∀ n, Host.Core.run core n s = .next s) ∧ ∀ rnd, execute rnd s = .next (s, .halted)

/-- Every instruction, in every state, answers a next state: nothing is refused and nothing ends outside the state
(R200: the error kinds are a closed list, and R205 gives the state after each; log entry 10). -/
def Obligations.EveryInstructionAnswersAState : Prop := ∀ (i : Instr) (s : State), ∃ t, exec i s = .next t

/-- R63, R70: an instruction placed at `PC` is what the next step runs, from any state whose memory is in its canonical
form (what placing does is this model's; log entry 23). -/
def Obligations.PlacedWordIsTheNextInstruction : Prop :=
  ∀ (s : State) (i : Instr), Memory.wf s.mem = true →
    step (s.withFetchWord 16 (encode i).toNat) = exec i (s.withFetchWord 16 (encode i).toNat)

/-- R63: a store is seen by the next fetch: when `store-registers x` writes the two bytes that lie at the next `PC`, the
next fetch reads the stored registers `r` and `q = r + 1` (the range check and `I` unchanged are D3 and D14; log entries
13 and 16). -/
def Obligations.StoreIsSeenByTheNextFetch : Prop :=
  ∀ (s t : State) (x r q : RegIdx), Memory.wf s.mem = true → s.i.toNat + x.toNat ≤ 0xFFF →
    exec (.storeRegisters x) s = .next t → q.toNat = r.toNat + 1 → q.toNat ≤ x.toNat →
    t.pc.toNat = s.i.toNat + r.toNat → fetch t = some (joinBytes (s.reg r) (s.reg q))

/-! ## Invariants -/

/-- After `Reset`, with any values of what it leaves unspecified, the invariant holds, and so it does at `State.reset`
(log entries 3 and 4). -/
def Obligations.ResetMeetsTheInvariant : Prop := (∀ u, Inv (opReset u)) ∧ Inv State.reset

/-- Every step keeps the invariant: memory stays in its canonical form, `ERR` and `HALT` stay a legal pair (R29), `PC`
stays at most 0x1002 (R24), and every return address in use stays at most 0x1000 (R102, R201; the error status is D18, the stack convention D7, log
entries 10 and 14). -/
def Obligations.StepKeepsTheInvariant : Prop := ∀ s t : State, Inv s → step s = .next t → Inv t

/-- R5, R25, R211: every schedule of the five operations, of any length and in any order, runs to its end from every state
with the invariant and leaves the invariant true (the free schedule is D25, log entries 1 and 27; that a fatal error is a
state and the legal pairs of `HALT` and `ERR` are D18 and D20, log entry 10; the return addresses in use are D7 and D8, log
entry 14; what `Load` and a halted core do is D21, D22 and D29, log entry 19). -/
def Obligations.EveryScheduleKeepsTheInvariant : Prop :=
  ∀ (ops : List Op) (s : State), Inv s → ∃ t answers, runOps ops s = .next (t, answers) ∧ Inv t

/-! ## Errors -/

/-- R205: an instruction that halts the core changes nothing but `HALT` and `ERR`, and the code is that of one of the
three fatal errors of `Execute` (D20; log entry 10). -/
def Obligations.FatalErrorChangesOnlyHaltAndErr : Prop :=
  ∀ (i : Instr) (s t : State), s.halt = false → exec i s = .next t → t.halt = true →
    (t = { s with halt := true, err := 1 } ∨ t = { s with halt := true, err := 2 } ∨
      t = { s with halt := true, err := 3 })

/-- R201: an instruction raises `OutOfRangeAddress` in exactly the listed places (D3, D9; log entries 13 and 14). -/
def Obligations.OutOfRangeIsRaisedExactlyWhereListed : Prop :=
  ∀ (i : Instr) (s : State), s.halt = false →
    (exec i s = .next { s with halt := true, err := 1 } ↔ raisesOutOfRange s i)

/-- R202: `call` at capacity raises `StackOverflow`, and so does the last of seventeen nested calls, the first sixteen of
which complete (the code and what the error leaves are D18 and D20, the stack convention D7; log entries 10 and 14). -/
def Obligations.SeventeenthNestedCallOverflows : Prop :=
  (∀ (s : State) (nnn : Addr), s.sp.val = 16 → exec (.call nnn) s = .next { s with halt := true, err := 2 }) ∧
  ∀ (targets : List Addr) (nnn : Addr) (s : State), targets.length = 16 → s.sp.val = 0 →
    ∃ t, runCalls targets s = .next t ∧ t.sp.val = 16 ∧ t.halt = s.halt ∧
      exec (.call nnn) t = .next { t with halt := true, err := 2 }

/-- R203: `return` on an empty stack raises `StackUnderflow`, and on a stack that is not empty it does not (D18, D20, D7;
log entries 10 and 14). -/
def Obligations.ReturnOnEmptyStackUnderflows : Prop :=
  ∀ s : State, s.halt = false → (exec .ret s = .next { s with halt := true, err := 3 } ↔ s.sp.val = 0)

/-! ## Control flow -/

/-- R104, R105, R106, R107: the four register skips add 4 when their condition holds and 2 when not, and change nothing
else. -/
def Obligations.RegisterSkipsAddFourOrTwo : Prop :=
  ∀ (s : State) (x y : RegIdx) (nn : Byte),
    exec (.skipEqImm x nn) s = .next { s with pc := s.pc + if (s.reg x).toNat = nn.toNat then 4 else 2 } ∧
    exec (.skipNeImm x nn) s = .next { s with pc := s.pc + if (s.reg x).toNat = nn.toNat then 2 else 4 } ∧
    exec (.skipEqReg x y) s = .next { s with pc := s.pc + if (s.reg x).toNat = (s.reg y).toNat then 4 else 2 } ∧
    exec (.skipNeReg x y) s = .next { s with pc := s.pc + if (s.reg x).toNat = (s.reg y).toNat then 2 else 4 }

/-- R170, R171, R174: the two key skips test the bit of `KEYS` that the low nibble of `V[x]` names, and change nothing but
`PC`. -/
def Obligations.KeySkipsTestTheLowNibblesKey : Prop :=
  ∀ (s : State) (x : RegIdx),
    exec (.skipKeyPressed x) s =
      .next { s with pc := s.pc + if s.keys.getLsbD ((s.reg x).toNat % 16) = true then 4 else 2 } ∧
    exec (.skipKeyNotPressed x) s =
      .next { s with pc := s.pc + if s.keys.getLsbD ((s.reg x).toNat % 16) = true then 2 else 4 }

/-- R101, R103: `jump nnn` sets `PC` to `nnn`; `jump-offset nnn` sets it to the exact sum `nnn + V[0]`, or raises
`OutOfRangeAddress` when that is above 0xFFF; neither changes anything else (the exact sum is D3, the error D18 and D20;
log entries 10 and 13). -/
def Obligations.JumpsSetPcToTheirTarget : Prop :=
  ∀ (s : State) (nnn : Addr),
    (∃ t, exec (.jump nnn) s = .next t ∧ t.pc.toNat = nnn.toNat ∧ OnlyPc s t) ∧
    (nnn.toNat + (s.reg 0).toNat ≤ 0xFFF →
      ∃ t, exec (.jumpOffset nnn) s = .next t ∧ t.pc.toNat = nnn.toNat + (s.reg 0).toNat ∧ OnlyPc s t) ∧
    (0xFFF < nnn.toNat + (s.reg 0).toNat → exec (.jumpOffset nnn) s = .next { s with halt := true, err := 1 })

/-- R102: `call nnn` with room on the stack completes: the address after the `call` at `STACK[SP]`, `SP` one more, `PC` at
the target; every other entry and everything else unchanged (D7, D8; log entry 14). -/
def Obligations.CallPushesTheReturnAddress : Prop :=
  ∀ (s : State) (nnn : Addr), s.sp.val < 16 →
    ∃ t, exec (.call nnn) s = .next t ∧ t.pc.toNat = nnn.toNat ∧ t.sp.val = s.sp.val + 1 ∧
      (∀ k : Fin 16, t.stack[k] = if k.val = s.sp.val then s.pc + 2 else s.stack[k]) ∧
      t = { s with pc := t.pc, sp := t.sp, stack := t.stack } ∧ SameMemory s t

/-- R100: `return` with an entry in range on top completes: `PC` is exactly that entry, `SP` one less, and everything else
unchanged, the entries too; with the entry above 0xFFF it raises `OutOfRangeAddress` and `SP` is not decremented
(D7, D9; log entry 14). -/
def Obligations.ReturnPopsIntoPc : Prop :=
  ∀ (s : State) (top : Word), 0 < s.sp.val → s.stack[s.sp.val - 1]? = some top →
    (top.toNat ≤ 0xFFF → ∃ t, exec .ret s = .next t ∧ t.pc = top ∧ t.sp.val + 1 = s.sp.val ∧
      t = { s with pc := t.pc, sp := t.sp } ∧ SameMemory s t) ∧
    (0xFFF < top.toNat → exec .ret s = .next { s with halt := true, err := 1 })

/-- R100, R102 (the source's property S6): a `call` followed by the matching `return` comes back to the address after the
`call` with the stack pointer, the entries in use and everything else as before; from a `call` at 0xFFE the `return`
raises `OutOfRangeAddress` (D8, D9; log entry 14). -/
def Obligations.ReturnComesBackAfterTheCall : Prop :=
  ∀ (s t : State) (nnn : Addr), s.sp.val < 16 → s.pc.toNat ≤ 0xFFE → exec (.call nnn) s = .next t →
    (s.pc.toNat ≤ 0xFFD → ∃ u, exec .ret t = .next u ∧ u.pc.toNat = s.pc.toNat + 2 ∧ u.sp = s.sp ∧
      (∀ k : Fin 16, k.val < s.sp.val → u.stack[k] = s.stack[k]) ∧
      u = { s with pc := u.pc, stack := u.stack } ∧ SameMemory s u) ∧
    (s.pc.toNat = 0xFFE → exec .ret t = .next { t with halt := true, err := 1 })

/-! ## Register load, arithmetic, logic, shift, random -/

/-- R120, R121: `load-imm` and `add-imm` (modulo 256) write `V[x]` and no other register; the flag register is written only
as `x = 15`. -/
def Obligations.LoadAndAddImmediateWriteOnlyVx : Prop :=
  ∀ (s : State) (x : RegIdx) (nn : Byte),
    (∃ t, exec (.loadImm x nn) s = .next t ∧ OnlyReg x nn s t ∧ t.pc = s.pc + 2 ∧ OnlyVAndPc s t) ∧
    (∃ t, exec (.addImm x nn) s = .next t ∧ (t.reg x).toNat = ((s.reg x).toNat + nn.toNat) % 256 ∧
      (∀ r, r ≠ x → t.reg r = s.reg r) ∧ t.pc = s.pc + 2 ∧ OnlyVAndPc s t)

/-- R122, R123, R124, R125: `assign-reg` copies `V[y]`, the three logic operations act bit by bit on `V[x]`, and VF is not
written unless `x = 15` (D12; log entry 15). -/
def Obligations.CopyAndLogicOperationsActBitByBit : Prop :=
  ∀ (s : State) (x y : RegIdx),
    (∃ t, exec (.assignReg x y) s = .next t ∧ OnlyReg x (s.reg y) s t ∧ t.pc = s.pc + 2 ∧ OnlyVAndPc s t) ∧
    (∃ t, exec (.orReg x y) s = .next t ∧
      (∀ k, (t.reg x).getLsbD k = ((s.reg x).getLsbD k || (s.reg y).getLsbD k)) ∧
      (∀ r, r ≠ x → t.reg r = s.reg r) ∧ t.pc = s.pc + 2 ∧ OnlyVAndPc s t) ∧
    (∃ t, exec (.andReg x y) s = .next t ∧
      (∀ k, (t.reg x).getLsbD k = ((s.reg x).getLsbD k && (s.reg y).getLsbD k)) ∧
      (∀ r, r ≠ x → t.reg r = s.reg r) ∧ t.pc = s.pc + 2 ∧ OnlyVAndPc s t) ∧
    (∃ t, exec (.xorReg x y) s = .next t ∧
      (∀ k, (t.reg x).getLsbD k = ((s.reg x).getLsbD k ^^ (s.reg y).getLsbD k)) ∧
      (∀ r, r ≠ x → t.reg r = s.reg r) ∧ t.pc = s.pc + 2 ∧ OnlyVAndPc s t)

/-- R126, R127, R129, R133: the sum with its carry, the two differences with their not-borrow; operands read first, flag
written last, so with `x = 15` VF ends as the flag (D10, log entry 15; that `subn-reg` is `Vy - Vx` is G4, log entry
8). -/
def Obligations.AddAndSubtractSetResultAndFlag : Prop :=
  ∀ (s : State) (x y : RegIdx),
    (∃ t, exec (.addReg x y) s = .next t ∧
      ResultAndFlag x (((s.reg x).toNat + (s.reg y).toNat) % 256) ((s.reg x).toNat + (s.reg y).toNat > 255) s t ∧
      t.pc = s.pc + 2 ∧ OnlyVAndPc s t) ∧
    (∃ t, exec (.subReg x y) s = .next t ∧
      ResultAndFlag x (((s.reg x).toNat + 256 - (s.reg y).toNat) % 256) ((s.reg y).toNat ≤ (s.reg x).toNat) s t ∧
      t.pc = s.pc + 2 ∧ OnlyVAndPc s t) ∧
    (∃ t, exec (.subnReg x y) s = .next t ∧
      ResultAndFlag x (((s.reg y).toNat + 256 - (s.reg x).toNat) % 256) ((s.reg x).toNat ≤ (s.reg y).toNat) s t ∧
      t.pc = s.pc + 2 ∧ OnlyVAndPc s t)

/-- R128, R130, R134: the shifts by one bit of `V[x]`, with the bit shifted out in VF, for `SHIFT_USES_VY = false`, the
value of this hardware: `y` is not read (D11, G5, D10; log entries 9 and 15). -/
def Obligations.ShiftsSetResultAndShiftedOutBit : Prop :=
  ∀ (s : State) (x y : RegIdx),
    (∃ t, exec (.shrReg x y) s = .next t ∧
      ResultAndFlag x ((s.reg x).toNat / 2) ((s.reg x).toNat % 2 = 1) s t ∧ t.pc = s.pc + 2 ∧ OnlyVAndPc s t) ∧
    (∃ t, exec (.shlReg x y) s = .next t ∧
      ResultAndFlag x ((s.reg x).toNat * 2 % 256) (128 ≤ (s.reg x).toNat) s t ∧ t.pc = s.pc + 2 ∧ OnlyVAndPc s t)

/-- R131: for every drawn byte, `random x, nn` leaves that byte AND `nn` in `V[x]` and writes no other register; the step's
own byte is a free value, of which only what the mask says is known (D17; log entry 2). -/
def Obligations.RandomMasksTheDrawnByte : Prop :=
  ∀ (s : State) (x : RegIdx) (nn : Byte),
    (∀ rnd, ∃ t, execWith rnd (.random x nn) s = .next t ∧ OnlyReg x (rnd &&& nn) s t ∧ t.pc = s.pc + 2 ∧
      t = { s with v := t.v, pc := t.pc, draws := t.draws } ∧ SameMemory s t) ∧
    ∃ t, exec (.random x nn) s = .next t ∧ (∃ rnd, OnlyReg x (rnd &&& nn) s t) ∧
      (∀ k, nn.getLsbD k = false → (t.reg x).getLsbD k = false) ∧ t.pc = s.pc + 2 ∧
      t = { s with v := t.v, pc := t.pc, draws := t.draws } ∧ SameMemory s t

/-! ## Index register and memory -/

/-- R140, R142: `set-index` puts `nnn` in `I`, and `font-char-address` five times the low nibble of `V[x]`; neither changes
anything else but `PC`. -/
def Obligations.SetIndexAndFontAddressWriteI : Prop :=
  ∀ (s : State) (x : RegIdx) (nnn : Addr),
    (∃ t, exec (.setIndex nnn) s = .next t ∧ t.i.toNat = nnn.toNat ∧ t.pc = s.pc + 2 ∧ OnlyIAndPc s t) ∧
    (∃ t, exec (.fontCharAddress x) s = .next t ∧ t.i.toNat = 5 * ((s.reg x).toNat % 16) ∧ t.pc = s.pc + 2 ∧
      OnlyIAndPc s t)

/-- R141: `add-to-index` adds the zero-extended `V[x]` to `I` modulo 65536 and writes no flag (D13; log entry 16). -/
def Obligations.AddToIndexWrapsAtSixteenBits : Prop :=
  ∀ (s : State) (x : RegIdx), ∃ t, exec (.addToIndex x) s = .next t ∧
    t.i.toNat = (s.i.toNat + (s.reg x).toNat) % 65536 ∧ t.pc = s.pc + 2 ∧ OnlyIAndPc s t

/-- R143: `store-bcd` writes the decimal digits of `V[x]`, hundreds, tens and ones, at `I`, `I + 1` and `I + 2`, and no
other byte; with `I + 2` above 0xFFF it raises `OutOfRangeAddress` and writes none (D3, D18, D20; log entries 10 and
13). -/
def Obligations.StoreBcdWritesThreeDigits : Prop :=
  ∀ (s : State) (x : RegIdx), Memory.wf s.mem = true →
    (s.i.toNat + 2 ≤ 0xFFF → ∃ t, exec (.storeBcd x) s = .next t ∧
      (t.byteAt s.i.toNat).toNat = (s.reg x).toNat / 100 ∧
      (t.byteAt (s.i.toNat + 1)).toNat = (s.reg x).toNat / 10 % 10 ∧
      (t.byteAt (s.i.toNat + 2)).toNat = (s.reg x).toNat % 10 ∧
      SameMemoryOutside s.i.toNat 3 s t ∧ t.pc = s.pc + 2 ∧ t = { s with mem := t.mem, pc := t.pc }) ∧
    (0xFFF < s.i.toNat + 2 → exec (.storeBcd x) s = .next { s with halt := true, err := 1 })

/-- R144: `store-registers` writes `V[0]` to `V[x]` at the addresses from `I` on, and no other byte, and leaves `I`
(D14; log entry 16); out of range it raises and writes none (D3; log entry 13). -/
def Obligations.StoreRegistersWritesTheRange : Prop :=
  ∀ (s : State) (x : RegIdx), Memory.wf s.mem = true →
    (s.i.toNat + x.toNat ≤ 0xFFF → ∃ t, exec (.storeRegisters x) s = .next t ∧
      (∀ r : RegIdx, r.toNat ≤ x.toNat → t.byteAt (s.i.toNat + r.toNat) = s.reg r) ∧
      SameMemoryOutside s.i.toNat (x.toNat + 1) s t ∧ t.pc = s.pc + 2 ∧ t = { s with mem := t.mem, pc := t.pc }) ∧
    (0xFFF < s.i.toNat + x.toNat → exec (.storeRegisters x) s = .next { s with halt := true, err := 1 })

/-- R145: `load-registers` loads `V[0]` to `V[x]` from the addresses from `I` on, keeps the registers above `x`, and leaves
`I` (D14; log entry 16); out of range it raises and loads none (D3; log entry 13). -/
def Obligations.LoadRegistersReadsTheRange : Prop :=
  ∀ (s : State) (x : RegIdx),
    (s.i.toNat + x.toNat ≤ 0xFFF → ∃ t, exec (.loadRegisters x) s = .next t ∧
      (∀ r : RegIdx, t.reg r = if r.toNat ≤ x.toNat then s.byteAt (s.i.toNat + r.toNat) else s.reg r) ∧
      t.pc = s.pc + 2 ∧ OnlyVAndPc s t) ∧
    (0xFFF < s.i.toNat + x.toNat → exec (.loadRegisters x) s = .next { s with halt := true, err := 1 })

/-- R144, R145: what `store-registers x` wrote, `load-registers x` brings back, in any later state with the same memory and
index (D3, D14; log entries 13 and 16). -/
def Obligations.LoadRegistersRestoresWhatWasStored : Prop :=
  ∀ (s t u : State) (x : RegIdx), Memory.wf s.mem = true → s.i.toNat + x.toNat ≤ 0xFFF →
    exec (.storeRegisters x) s = .next t → u.mem = t.mem → u.i = s.i →
    ∃ w, exec (.loadRegisters x) u = .next w ∧
      ∀ r : RegIdx, w.reg r = if r.toNat ≤ x.toNat then s.reg r else u.reg r

/-! ## Display -/

/-- R160: `clear-screen` turns every pixel off and changes nothing else but `PC`. -/
def Obligations.ClearScreenTurnsEveryPixelOff : Prop :=
  ∀ s : State, ∃ t, exec .clearScreen s = .next t ∧ (∀ k, k < 2048 → t.fbRead k = false) ∧ t.pc = s.pc + 2 ∧
    t = { s with fb := t.fb, pc := t.pc } ∧ SameMemory s t

/-- R161, R162: with its bytes in range `draw-sprite` inverts exactly the screen pixels that its 1 bits cover, clipped and
not wrapped; VF is 1 when one of them was on, and no other register changes (D15, log entry 17; the bit order is G3, log
entry 7). -/
def Obligations.DrawSpriteInvertsTheCoveredPixels : Prop :=
  ∀ (s : State) (x y : RegIdx) (n : Nibble), spriteInRange n s →
    ∃ t, exec (.drawSprite x y n) s = .next t ∧
      (∀ px py, px < 64 → py < 32 →
        (t.fb.pixel px py ≠ s.fb.pixel px py ↔ spriteCovers x y n s px py)) ∧
      ((t.reg 15 = 1 ∧ ∃ px py, px < 64 ∧ py < 32 ∧ spriteCovers x y n s px py ∧ s.fb.pixel px py = true) ∨
       (t.reg 15 = 0 ∧ ¬∃ px py, px < 64 ∧ py < 32 ∧ spriteCovers x y n s px py ∧ s.fb.pixel px py = true)) ∧
      (∀ r, r ≠ 15 → t.reg r = s.reg r) ∧ t.pc = s.pc + 2 ∧
      t = { s with v := t.v, fb := t.fb, pc := t.pc } ∧ SameMemory s t

/-- R161 (the source's property S4): drawing the same sprite twice at the same place restores the screen, and the second
draw sets VF when the sprite covers a pixel that was off (D15; log entry 17).  The coordinates are not in VF, which the
first draw writes. -/
def Obligations.DrawingTwiceRestoresTheScreen : Prop :=
  ∀ (s t : State) (x y : RegIdx) (n : Nibble), x ≠ 15 → y ≠ 15 → spriteInRange n s →
    exec (.drawSprite x y n) s = .next t →
    ∃ u, exec (.drawSprite x y n) t = .next u ∧ u.fb = s.fb ∧
      (u.reg 15 = 1 ↔ ∃ px py, px < 64 ∧ py < 32 ∧ spriteCovers x y n s px py ∧ s.fb.pixel px py = false)

/-! ## Keys and timers -/

/-- R172: with no key down `wait-key` changes nothing, `PC` too; with a key down it puts the lowest-numbered key in `V[x]`,
writes no other register and advances once (D16; log entry 18). -/
def Obligations.WaitKeyHoldsThenReportsTheLowestKey : Prop :=
  ∀ (s : State) (x : RegIdx),
    (s.keys = 0 → exec (.waitKey x) s = .next s) ∧
    (s.keys ≠ 0 → ∃ t, exec (.waitKey x) s = .next t ∧ s.keys.getLsbD (t.reg x).toNat = true ∧
      (∀ k, k < (t.reg x).toNat → s.keys.getLsbD k = false) ∧ (∀ r, r ≠ x → t.reg r = s.reg r) ∧
      t.pc = s.pc + 2 ∧ OnlyVAndPc s t)

/-- R173, R175, R176: `get-delay-timer` reads `DT` into `V[x]`; the two setters write their timer and nothing else, and
`sound_on` is then whether the value set is not zero. -/
def Obligations.TimerInstructionsMoveTheTimers : Prop :=
  ∀ (s : State) (x : RegIdx),
    (∃ t, exec (.getDelayTimer x) s = .next t ∧ OnlyReg x s.dt s t ∧ t.pc = s.pc + 2 ∧ OnlyVAndPc s t) ∧
    (∃ t, exec (.setDelayTimer x) s = .next t ∧ t.dt = s.reg x ∧ t.pc = s.pc + 2 ∧
      t = { s with dt := t.dt, pc := t.pc } ∧ SameMemory s t) ∧
    (∃ t, exec (.setSoundTimer x) s = .next t ∧ t.st = s.reg x ∧ (t.soundOn = true ↔ s.reg x ≠ 0) ∧
      t.pc = s.pc + 2 ∧ t = { s with st := t.st, pc := t.pc } ∧ SameMemory s t)

/-! ## Rules about all instructions -/

/-- R21: VF is written by the six flag setters, which leave 0 or 1 in it when they complete, by `load-registers 15`, and
otherwise only by an instruction that names register 15 as its destination (D10, D12; log entry 15). -/
def Obligations.OnlyTheNamedInstructionsWriteVf : Prop :=
  ∀ (i : Instr) (s t : State), s.halt = false → exec i s = .next t →
    (t.reg 15 ≠ s.reg 15 → setsFlag i = true ∨ i = .loadRegisters 15 ∨ plainDestination i = some 15) ∧
    (setsFlag i = true → t.halt = false → t.reg 15 = 0 ∨ t.reg 15 = 1)

/-- R37: an instruction writes no element that its row of the access table does not show, and none writes `KEYS` or
`UNK`. -/
def Obligations.InstructionsWriteOnlyTheirRowsElements : Prop :=
  ∀ (i : Instr) (s t : State), exec i s = .next t →
    (∀ r, t.reg r ≠ s.reg r → mayWriteReg i r) ∧
    (t.i ≠ s.i → mayWriteI i = true) ∧
    (t.sp ≠ s.sp ∨ t.stack ≠ s.stack → mayWriteStack i = true) ∧
    (t.dt ≠ s.dt → ∃ x, i = .setDelayTimer x) ∧
    (t.st ≠ s.st → ∃ x, i = .setSoundTimer x) ∧
    (t.fb ≠ s.fb → mayWriteFb i = true) ∧
    (t.mem ≠ s.mem → mayWriteMem i = true) ∧
    t.keys = s.keys ∧ t.unk = s.unk

/-- R24: how `PC` moves when an instruction completes (the advance is not checked, D5; the key wait is D16, what `return`
pops D7 and D8; log entries 13, 14 and 18). -/
def Obligations.PcMovesByTheInstructionsKind : Prop :=
  ∀ (i : Instr) (s t : State), s.halt = false → exec i s = .next t → t.halt = false →
    match i with
    | .jump nnn | .call nnn => t.pc.toNat = nnn.toNat
    | .jumpOffset nnn => t.pc.toNat = nnn.toNat + (s.reg 0).toNat
    | .ret => s.stack[s.sp.val - 1]? = some t.pc
    | .waitKey _ => t.pc = s.pc + if s.keys = 0 then 0 else 2
    | i => t.pc = s.pc + 2 ∨ (isSkip i = true ∧ t.pc = s.pc + 4)

/-- R163: the screen flows into nothing but the screen and the collision bit: with another screen, an instruction other than
`draw-sprite` gives the same state up to the screen, and `draw-sprite` the same up to the screen and VF (both with the same drawn byte; log entry 2). -/
def Obligations.ScreenFlowsOnlyIntoTheCollisionBit : Prop :=
  ∀ (i : Instr) (s t : State) (fb : Framebuffer), exec i s = .next t →
    ∃ fb' flag, exec i { s with fb := fb } = .next { t with fb := fb', v := t.v.set 15 flag } ∧
      ((∀ x y n, i ≠ .drawSprite x y n) → flag = t.reg 15)

/-- R29, R37: no instruction reads `ST` or `UNK`: with other values there, it gives the same state, but that the values
there are carried through; `set-sound-timer` leaves the same `ST` whatever `ST` was (both with the same drawn byte, log
entry 2; `UNK` is the spec's own element, D18, log entry 10). -/
def Obligations.SoundTimerAndUnkAreNeverRead : Prop :=
  ∀ (i : Instr) (s t : State) (st : Byte) (unk : Bool), exec i s = .next t →
    ∃ st', exec i { s with st := st, unk := unk } = .next { t with st := st', unk := unk } ∧
      ((∀ x, i ≠ .setSoundTimer x) → st' = st) ∧ (∀ x, i = .setSoundTimer x → st' = t.st)

/-! ## The operations of the host -/

/-- R35, R36, R230: what `Reset` leaves, for any values of what it leaves unspecified: the registers, the font, the error
status, and every unspecified element as given (`I = 0` and the error status are D23 and D18; the font bytes are G2, log
entry 6). -/
def Obligations.ResetLeavesTheStatedValues : Prop :=
  ∀ u : Unspecified,
    (∀ r, (opReset u).reg r = 0) ∧ (opReset u).i = 0 ∧ (opReset u).dt = 0 ∧ (opReset u).st = 0 ∧
    (opReset u).sp.val = 0 ∧ (opReset u).pc = 0x200 ∧ (opReset u).status = (false, 0, false) ∧
    (∀ j, j < 80 → font[j]? = some ((opReset u).byteAt j)) ∧ font.length = 80 ∧
    (∀ k, k < u.upper.length → 0x050 + k ≤ 0xFFF → u.upper[k]? = some ((opReset u).byteAt (0x050 + k))) ∧
    (opReset u).fb = u.fb ∧ (opReset u).stack = u.stack ∧ (opReset u).keys = u.keys

/-- R233, R234: `Load` of an image that fits puts byte `j` of it at `0x200 + j` and changes nothing else; of one that does
not fit it writes no byte and halts the core with `ERR = 5` (D22, D29; log entry 19). -/
def Obligations.LoadPlacesTheImageOrHalts : Prop :=
  ∀ (image : List Byte) (s : State), Memory.wf s.mem = true →
    (image.length ≤ 3584 → ∃ t, opLoad image s = (t, .ok) ∧
      (∀ j, j < image.length → image[j]? = some (t.byteAt (0x200 + j))) ∧
      SameMemoryOutside 0x200 image.length s t ∧ t = { s with mem := t.mem }) ∧
    (3584 < image.length → opLoad image s = ({ s with halt := true, err := 5 }, .tooLarge))

/-- R236: boot succeeds exactly when the image fits, and then execution starts at 0x200 with the image there, the font
below it, all registers, `I`, the timers and `SP` zero, and no error (`I` and the error status are D23 and D18, the font
G2; log entries 6 and 10). -/
def Obligations.BootStartsTheImageAtItsFirstByte : Prop :=
  ∀ (u : Unspecified) (image : List Byte),
    (boot u image = none ↔ 3584 < image.length) ∧
    ∀ s, boot u image = some s →
      s.pc = 0x200 ∧ s.halt = false ∧ s.err = 0 ∧ s.unk = false ∧ (∀ r, s.reg r = 0) ∧ s.i = 0 ∧ s.dt = 0 ∧
      s.st = 0 ∧ s.sp.val = 0 ∧ (∀ j, j < image.length → image[j]? = some (s.byteAt (0x200 + j))) ∧
      (∀ j, j < 80 → font[j]? = some (s.byteAt j))

/-- R210: `Tick` counts both timers down by one, each on its own, not below zero, and changes nothing else. -/
def Obligations.TickCountsBothTimersDown : Prop :=
  ∀ s : State, (opTick s).dt.toNat = s.dt.toNat - 1 ∧ (opTick s).st.toNat = s.st.toNat - 1 ∧
    opTick s = { s with dt := (opTick s).dt, st := (opTick s).st }

/-- R210 (the source's property S9): after `n` ticks each timer is `n` lower or zero, and `sound_on` has fallen exactly when
`n` reached the sound timer. -/
def Obligations.TicksRunTheTimersOut : Prop :=
  ∀ (n : Nat) (s : State), (ticks n s).dt.toNat = s.dt.toNat - n ∧ (ticks n s).st.toNat = s.st.toNat - n ∧
    ((ticks n s).soundOn = true ↔ n < s.st.toNat) ∧
    ticks n s = { s with dt := (ticks n s).dt, st := (ticks n s).st }

/-- R38, R41, R172: a cycle with the core at a `wait-key`: with no key down the outcome is `Waiting` and only the snapshot
changed; with a key down the outcome is `Ok` and the wait is over (D16; log entry 18). -/
def Obligations.CycleEndsTheKeyWait : Prop :=
  ∀ (s : State) (x : RegIdx) (rnd : Byte) (k : Word), s.halt = false → s.pc.toNat ≤ 0xFFE →
    decode (joinBytes (s.byteAt s.pc.toNat) (s.byteAt (s.pc.toNat + 1))) = some (.waitKey x) →
    (k = 0 → cycle k rnd s = .next ({ s with keys := 0 }, .waiting)) ∧
    (k ≠ 0 → ∃ t, cycle k rnd s = .next (t, .ok) ∧ t.pc = s.pc + 2 ∧ k.getLsbD (t.reg x).toNat = true ∧ t.keys = k)

/-- R39, R131: a step is `Execute` with the model's free random byte (D17, D18; log entries 2 and 20). -/
def Obligations.StepIsExecuteWithTheFreeByte : Prop :=
  ∀ s : State, ∃ t outcome, execute (Config.randomByte s.draws) s = .next (t, outcome) ∧ step s = .next t

/-- R40: what each outcome of `Execute` says of the state (D18; log entry 20). -/
def Obligations.OutcomeTellsWhatExecuteDid : Prop :=
  ∀ (s : State) (rnd : Byte), ∃ t outcome, execute rnd s = .next (t, outcome) ∧
    match outcome with
    | .halted => s.halt = true ∧ t = s
    | .fault e => s.halt = false ∧ t = { s with halt := true, err := e.code } ∧
        (e = .outOfRangeAddress ∨ e = .stackOverflow ∨ e = .stackUnderflow)
    | .unknown w => s.halt = false ∧ fetch s = some w ∧ decode w = none ∧ t = { s with unk := true, pc := s.pc + 2 }
    | .waiting => s.halt = false ∧ s.keys = 0 ∧ t = s ∧ ∃ w x, fetch s = some w ∧ decode w = some (.waitKey x)
    | .ok => s.halt = false ∧ t.halt = false ∧ t.err = s.err ∧ t.unk = s.unk ∧
        ∃ w i, fetch s = some w ∧ decode w = some i ∧ execWith rnd i s = .next t

/-- R29, R38, R207, R210, R234: only `Reset` clears `HALT` and `UNK`; and in every state, a halted one too, `RefreshInput`
sets `KEYS`, `Tick` counts both timers down and `Load` of an image that fits writes its bytes, and nothing else changes
(D18, D21, D29; log entries 10 and 19). -/
def Obligations.OnlyResetClearsHaltAndUnk : Prop :=
  ∀ (op : Op) (s t : State) (a : OpAnswer), (∀ u, op ≠ .reset u) → apply op s = .next (t, a) →
    (s.halt = true → t.halt = true) ∧ (s.unk = true → t.unk = true) ∧
    (∀ k, op = .refreshInput k → t = { s with keys := k }) ∧
    (op = .tick → t.dt.toNat = s.dt.toNat - 1 ∧ t.st.toNat = s.st.toNat - 1 ∧ t = { s with dt := t.dt, st := t.st }) ∧
    (∀ image, op = .load image → image.length ≤ 3584 → t = { s with mem := Memory.writeBytes s.mem 0x200 image })
end

