-- ==== Sys2Proof/Laws/Decode.lean ====
section
/-! SUPPORT. The fields of a word: each is linear in the bitwise or, and reads back what the encoder put in its place (R71, R81). -/
namespace Sys2Proof

@[simp] theorem opField_or (a b : Word) : opField (a ||| b) = opField a ||| opField b := by
  simp [opField, BitVec.extractLsb'_or]

@[simp] theorem xField_or (a b : Word) : xField (a ||| b) = xField a ||| xField b := by
  simp [xField, BitVec.extractLsb'_or]

@[simp] theorem yField_or (a b : Word) : yField (a ||| b) = yField a ||| yField b := by
  simp [yField, BitVec.extractLsb'_or]

@[simp] theorem nField_or (a b : Word) : nField (a ||| b) = nField a ||| nField b := by
  simp [nField, BitVec.extractLsb'_or]

@[simp] theorem nnField_or (a b : Word) : nnField (a ||| b) = nnField a ||| nnField b := by
  simp [nnField, BitVec.extractLsb'_or]

@[simp] theorem nnnField_or (a b : Word) : nnnField (a ||| b) = nnnField a ||| nnnField b := by
  simp [nnnField, BitVec.extractLsb'_or]

@[simp] theorem opField_placeX (x : RegIdx) : opField (placeX x) = 0 := by
  revert x; decide

@[simp] theorem xField_placeX (x : RegIdx) : xField (placeX x) = x := by
  revert x; decide

@[simp] theorem yField_placeX (x : RegIdx) : yField (placeX x) = 0 := by
  revert x; decide

@[simp] theorem nField_placeX (x : RegIdx) : nField (placeX x) = 0 := by
  revert x; decide

@[simp] theorem nnField_placeX (x : RegIdx) : nnField (placeX x) = 0 := by
  revert x; decide

@[simp] theorem opField_placeY (y : RegIdx) : opField (placeY y) = 0 := by
  revert y; decide

@[simp] theorem xField_placeY (y : RegIdx) : xField (placeY y) = 0 := by
  revert y; decide

@[simp] theorem yField_placeY (y : RegIdx) : yField (placeY y) = y := by
  revert y; decide

@[simp] theorem nField_placeY (y : RegIdx) : nField (placeY y) = 0 := by
  revert y; decide

@[simp] theorem opField_placeLow_nibble (n : Nibble) : opField (placeLow 4 n) = 0 := by
  revert n; decide

@[simp] theorem xField_placeLow_nibble (n : Nibble) : xField (placeLow 4 n) = 0 := by
  revert n; decide

@[simp] theorem yField_placeLow_nibble (n : Nibble) : yField (placeLow 4 n) = 0 := by
  revert n; decide

@[simp] theorem nField_placeLow_nibble (n : Nibble) : nField (placeLow 4 n) = n := by
  revert n; decide

@[simp] theorem opField_placeLow_byte (nn : Byte) : opField (placeLow 8 nn) = 0 := by
  ext k hk
  have : nn.getLsbD (12 + k) = false := BitVec.getLsbD_of_ge _ _ (by omega)
  simp [opField, placeLow, this]

@[simp] theorem xField_placeLow_byte (nn : Byte) : xField (placeLow 8 nn) = 0 := by
  ext k hk; simp [xField, placeLow]

@[simp] theorem nnField_placeLow_byte (nn : Byte) : nnField (placeLow 8 nn) = nn := by
  ext k hk
  have : k < 16 := by omega
  simp [nnField, placeLow, hk, this, BitVec.getLsbD_eq_getElem]

@[simp] theorem opField_placeLow_addr (a : Addr) : opField (placeLow 12 a) = 0 := by
  ext k hk; simp [opField, placeLow]

@[simp] theorem nnnField_placeLow_addr (a : Addr) : nnnField (placeLow 12 a) = a := by
  ext k hk
  have : k < 16 := by omega
  simp [nnnField, placeLow, hk, this, BitVec.getLsbD_eq_getElem]

/-- A word's two bytes, put together high byte first, are the word (R53). -/
@[simp] theorem joinBytes_wordBytes (w : Word) : joinBytes (w.extractLsb' 8 8) (w.extractLsb' 0 8) = w := by
  ext k hk
  by_cases h : k < 8
  · simp [joinBytes, h, BitVec.getLsbD_eq_getElem, hk]
  · have e : 8 + (k - 8) = k := by omega
    have : 8 ≤ k := by omega
    have : k - 8 < 8 := by omega
    simp [joinBytes, BitVec.getLsbD_eq_getElem, *]

/-- The decoder reads an instruction's bytes as the decoder reads its word, and leaves the bytes after it. -/
theorem decodeBytes_wordBytes (w : Word) (rest : List Byte) :
    decodeBytes (wordBytes w ++ rest) =
      match decode w with
      | some i => .ok (i, rest)
      | none => .error (.unknownOpcode w) := by
  cases h : decode w <;> simp [wordBytes, decodeBytes, h]

end Sys2Proof
end

