-- ==== Sys2Proof/Laws/State.lean ====
section
/-! SUPPORT. The lemmas of the state's named updates: one per field per update, and what reading a register or a byte gives after
an update of something else. -/
namespace Sys2Proof.Machine

@[simp] theorem State.setReg_i (s : State) (x : RegIdx) (u : Byte) : (s.setReg x u).i = s.i := rfl
@[simp] theorem State.setReg_pc (s : State) (x : RegIdx) (u : Byte) : (s.setReg x u).pc = s.pc := rfl
@[simp] theorem State.setReg_stack (s : State) (x : RegIdx) (u : Byte) : (s.setReg x u).stack = s.stack := rfl
@[simp] theorem State.setReg_sp (s : State) (x : RegIdx) (u : Byte) : (s.setReg x u).sp = s.sp := rfl
@[simp] theorem State.setReg_dt (s : State) (x : RegIdx) (u : Byte) : (s.setReg x u).dt = s.dt := rfl
@[simp] theorem State.setReg_st (s : State) (x : RegIdx) (u : Byte) : (s.setReg x u).st = s.st := rfl
@[simp] theorem State.setReg_fb (s : State) (x : RegIdx) (u : Byte) : (s.setReg x u).fb = s.fb := rfl
@[simp] theorem State.setReg_keys (s : State) (x : RegIdx) (u : Byte) : (s.setReg x u).keys = s.keys := rfl
@[simp] theorem State.setReg_mem (s : State) (x : RegIdx) (u : Byte) : (s.setReg x u).mem = s.mem := rfl
@[simp] theorem State.setReg_halt (s : State) (x : RegIdx) (u : Byte) : (s.setReg x u).halt = s.halt := rfl
@[simp] theorem State.setReg_err (s : State) (x : RegIdx) (u : Byte) : (s.setReg x u).err = s.err := rfl
@[simp] theorem State.setReg_unk (s : State) (x : RegIdx) (u : Byte) : (s.setReg x u).unk = s.unk := rfl
@[simp] theorem State.setReg_draws (s : State) (x : RegIdx) (u : Byte) : (s.setReg x u).draws = s.draws := rfl

@[simp] theorem State.setPc_v (s : State) (a : Word) : (s.setPc a).v = s.v := rfl
@[simp] theorem State.setPc_i (s : State) (a : Word) : (s.setPc a).i = s.i := rfl
@[simp] theorem State.setPc_stack (s : State) (a : Word) : (s.setPc a).stack = s.stack := rfl
@[simp] theorem State.setPc_sp (s : State) (a : Word) : (s.setPc a).sp = s.sp := rfl
@[simp] theorem State.setPc_dt (s : State) (a : Word) : (s.setPc a).dt = s.dt := rfl
@[simp] theorem State.setPc_st (s : State) (a : Word) : (s.setPc a).st = s.st := rfl
@[simp] theorem State.setPc_fb (s : State) (a : Word) : (s.setPc a).fb = s.fb := rfl
@[simp] theorem State.setPc_keys (s : State) (a : Word) : (s.setPc a).keys = s.keys := rfl
@[simp] theorem State.setPc_mem (s : State) (a : Word) : (s.setPc a).mem = s.mem := rfl
@[simp] theorem State.setPc_halt (s : State) (a : Word) : (s.setPc a).halt = s.halt := rfl
@[simp] theorem State.setPc_err (s : State) (a : Word) : (s.setPc a).err = s.err := rfl
@[simp] theorem State.setPc_unk (s : State) (a : Word) : (s.setPc a).unk = s.unk := rfl
@[simp] theorem State.setPc_draws (s : State) (a : Word) : (s.setPc a).draws = s.draws := rfl
@[simp] theorem State.setPc_pc (s : State) (a : Word) : (s.setPc a).pc = a := rfl

@[simp] theorem State.store_i (s : State) (a : Nat) (us : List Byte) : (s.store a us).i = s.i := rfl
@[simp] theorem State.store_pc (s : State) (a : Nat) (us : List Byte) : (s.store a us).pc = s.pc := rfl
@[simp] theorem State.store_stack (s : State) (a : Nat) (us : List Byte) : (s.store a us).stack = s.stack := rfl
@[simp] theorem State.store_sp (s : State) (a : Nat) (us : List Byte) : (s.store a us).sp = s.sp := rfl
@[simp] theorem State.store_dt (s : State) (a : Nat) (us : List Byte) : (s.store a us).dt = s.dt := rfl
@[simp] theorem State.store_st (s : State) (a : Nat) (us : List Byte) : (s.store a us).st = s.st := rfl
@[simp] theorem State.store_fb (s : State) (a : Nat) (us : List Byte) : (s.store a us).fb = s.fb := rfl
@[simp] theorem State.store_keys (s : State) (a : Nat) (us : List Byte) : (s.store a us).keys = s.keys := rfl
@[simp] theorem State.store_halt (s : State) (a : Nat) (us : List Byte) : (s.store a us).halt = s.halt := rfl
@[simp] theorem State.store_err (s : State) (a : Nat) (us : List Byte) : (s.store a us).err = s.err := rfl
@[simp] theorem State.store_unk (s : State) (a : Nat) (us : List Byte) : (s.store a us).unk = s.unk := rfl
@[simp] theorem State.store_draws (s : State) (a : Nat) (us : List Byte) : (s.store a us).draws = s.draws := rfl
@[simp] theorem State.store_v (s : State) (a : Nat) (us : List Byte) : (s.store a us).v = s.v := rfl

@[simp] theorem State.halted_i (s : State) (e : ErrorKind) : (s.halted e).i = s.i := rfl
@[simp] theorem State.halted_pc (s : State) (e : ErrorKind) : (s.halted e).pc = s.pc := rfl
@[simp] theorem State.halted_stack (s : State) (e : ErrorKind) : (s.halted e).stack = s.stack := rfl
@[simp] theorem State.halted_sp (s : State) (e : ErrorKind) : (s.halted e).sp = s.sp := rfl
@[simp] theorem State.halted_dt (s : State) (e : ErrorKind) : (s.halted e).dt = s.dt := rfl
@[simp] theorem State.halted_st (s : State) (e : ErrorKind) : (s.halted e).st = s.st := rfl
@[simp] theorem State.halted_fb (s : State) (e : ErrorKind) : (s.halted e).fb = s.fb := rfl
@[simp] theorem State.halted_keys (s : State) (e : ErrorKind) : (s.halted e).keys = s.keys := rfl
@[simp] theorem State.halted_mem (s : State) (e : ErrorKind) : (s.halted e).mem = s.mem := rfl
@[simp] theorem State.halted_unk (s : State) (e : ErrorKind) : (s.halted e).unk = s.unk := rfl
@[simp] theorem State.halted_draws (s : State) (e : ErrorKind) : (s.halted e).draws = s.draws := rfl
@[simp] theorem State.halted_v (s : State) (e : ErrorKind) : (s.halted e).v = s.v := rfl
@[simp] theorem State.halted_halt (s : State) (e : ErrorKind) : (s.halted e).halt = true := rfl
@[simp] theorem State.halted_err (s : State) (e : ErrorKind) : (s.halted e).err = e.code := rfl

@[simp] theorem State.setRegs_i (s : State) (v : Vector Byte 16) : (s.setRegs v).i = s.i := rfl
@[simp] theorem State.setRegs_pc (s : State) (v : Vector Byte 16) : (s.setRegs v).pc = s.pc := rfl
@[simp] theorem State.setRegs_stack (s : State) (v : Vector Byte 16) : (s.setRegs v).stack = s.stack := rfl
@[simp] theorem State.setRegs_sp (s : State) (v : Vector Byte 16) : (s.setRegs v).sp = s.sp := rfl
@[simp] theorem State.setRegs_dt (s : State) (v : Vector Byte 16) : (s.setRegs v).dt = s.dt := rfl
@[simp] theorem State.setRegs_st (s : State) (v : Vector Byte 16) : (s.setRegs v).st = s.st := rfl
@[simp] theorem State.setRegs_fb (s : State) (v : Vector Byte 16) : (s.setRegs v).fb = s.fb := rfl
@[simp] theorem State.setRegs_keys (s : State) (v : Vector Byte 16) : (s.setRegs v).keys = s.keys := rfl
@[simp] theorem State.setRegs_mem (s : State) (v : Vector Byte 16) : (s.setRegs v).mem = s.mem := rfl
@[simp] theorem State.setRegs_halt (s : State) (v : Vector Byte 16) : (s.setRegs v).halt = s.halt := rfl
@[simp] theorem State.setRegs_err (s : State) (v : Vector Byte 16) : (s.setRegs v).err = s.err := rfl
@[simp] theorem State.setRegs_unk (s : State) (v : Vector Byte 16) : (s.setRegs v).unk = s.unk := rfl
@[simp] theorem State.setRegs_draws (s : State) (v : Vector Byte 16) : (s.setRegs v).draws = s.draws := rfl
@[simp] theorem State.setRegs_v (s : State) (v : Vector Byte 16) : (s.setRegs v).v = v := rfl

@[simp] theorem loadRegsUpTo_i (s : State) (x : RegIdx) (a : Nat) : (loadRegsUpTo s x a).i = s.i := s.setRegs_i _
@[simp] theorem loadRegsUpTo_pc (s : State) (x : RegIdx) (a : Nat) : (loadRegsUpTo s x a).pc = s.pc := s.setRegs_pc _
@[simp] theorem loadRegsUpTo_stack (s : State) (x : RegIdx) (a : Nat) : (loadRegsUpTo s x a).stack = s.stack := s.setRegs_stack _
@[simp] theorem loadRegsUpTo_sp (s : State) (x : RegIdx) (a : Nat) : (loadRegsUpTo s x a).sp = s.sp := s.setRegs_sp _
@[simp] theorem loadRegsUpTo_dt (s : State) (x : RegIdx) (a : Nat) : (loadRegsUpTo s x a).dt = s.dt := s.setRegs_dt _
@[simp] theorem loadRegsUpTo_st (s : State) (x : RegIdx) (a : Nat) : (loadRegsUpTo s x a).st = s.st := s.setRegs_st _
@[simp] theorem loadRegsUpTo_fb (s : State) (x : RegIdx) (a : Nat) : (loadRegsUpTo s x a).fb = s.fb := s.setRegs_fb _
@[simp] theorem loadRegsUpTo_keys (s : State) (x : RegIdx) (a : Nat) : (loadRegsUpTo s x a).keys = s.keys := s.setRegs_keys _
@[simp] theorem loadRegsUpTo_mem (s : State) (x : RegIdx) (a : Nat) : (loadRegsUpTo s x a).mem = s.mem := s.setRegs_mem _
@[simp] theorem loadRegsUpTo_halt (s : State) (x : RegIdx) (a : Nat) : (loadRegsUpTo s x a).halt = s.halt := s.setRegs_halt _
@[simp] theorem loadRegsUpTo_err (s : State) (x : RegIdx) (a : Nat) : (loadRegsUpTo s x a).err = s.err := s.setRegs_err _
@[simp] theorem loadRegsUpTo_unk (s : State) (x : RegIdx) (a : Nat) : (loadRegsUpTo s x a).unk = s.unk := s.setRegs_unk _
@[simp] theorem loadRegsUpTo_draws (s : State) (x : RegIdx) (a : Nat) : (loadRegsUpTo s x a).draws = s.draws := s.setRegs_draws _

/-- A register write changes the register it names and no other. -/
theorem State.reg_setReg (s : State) (x r : RegIdx) (u : Byte) :
    (s.setReg x u).reg r = if r = x then u else s.reg r := by
  unfold State.setReg State.reg
  simp only [Vector.getElem_set]
  by_cases h : r = x
  · simp [h]
  · have : x.toNat ≠ r.toNat := fun e => h (BitVec.eq_of_toNat_eq e.symm)
    simp [h, this]

@[simp] theorem State.reg_setReg_same (s : State) (x : RegIdx) (u : Byte) : (s.setReg x u).reg x = u := by
  simp [State.reg_setReg]

/-- The registers are read from `v` alone. -/
theorem State.reg_congr {s t : State} (h : t.v = s.v) (x : RegIdx) : t.reg x = s.reg x := by simp [State.reg, h]

/-- Memory is read from `mem` alone. -/
theorem State.byteAt_congr {s t : State} (h : t.mem = s.mem) (a : Nat) : t.byteAt a = s.byteAt a := by
  simp [State.byteAt, h]

@[simp] theorem State.reg_setPc (s : State) (a : Word) (x : RegIdx) : (s.setPc a).reg x = s.reg x := rfl

@[simp] theorem State.byteAt_setPc (s : State) (p : Word) (a : Nat) : (s.setPc p).byteAt a = s.byteAt a := rfl

@[simp] theorem State.byteAt_setReg (s : State) (x : RegIdx) (u : Byte) (a : Nat) :
    (s.setReg x u).byteAt a = s.byteAt a := rfl

@[simp] theorem State.reg_store (s : State) (a : Nat) (us : List Byte) (x : RegIdx) :
    (s.store a us).reg x = s.reg x := rfl

@[simp] theorem State.reg_halted (s : State) (e : ErrorKind) (x : RegIdx) : (s.halted e).reg x = s.reg x := rfl

@[simp] theorem State.byteAt_halted (s : State) (e : ErrorKind) (a : Nat) : (s.halted e).byteAt a = s.byteAt a := rfl

@[simp] theorem State.byteAt_loadRegsUpTo (s : State) (x : RegIdx) (b a : Nat) :
    (loadRegsUpTo s x b).byteAt a = s.byteAt a := State.byteAt_congr (loadRegsUpTo_mem s x b) a

/-- The block load: registers up to `x` from memory, the others as they were (R145). -/
theorem reg_loadRegsUpTo (s : State) (x r : RegIdx) (a : Nat) :
    (loadRegsUpTo s x a).reg r = if r.toNat ≤ x.toNat then s.byteAt (a + r.toNat) else s.reg r := by
  simp [loadRegsUpTo, State.reg, State.byteAt]

end Sys2Proof.Machine
end

