-- ==== Sys2Proof/Laws/Memory.lean ====
section
/-! SUPPORT. Memory: every operation keeps the canonical form, a read after a write, and the canonical form is canonical (equal
contents are equal lists). -/
namespace Sys2Proof.Machine

theorem Memory.wfFrom_cons {lo a : Nat} {u : Byte} {m : List Host.Cell} :
    Memory.wfFrom lo ((a, u) :: m) = true ↔
      lo ≤ a ∧ a ≤ 0xFFF ∧ u ≠ Memory.resetByte a ∧ Memory.wfFrom (a + 1) m = true := by
  simp [Memory.wfFrom, and_assoc]

theorem Memory.wfFrom_mono {lo lo' : Nat} {m : List Host.Cell} (h : lo ≤ lo') (hm : Memory.wfFrom lo' m = true) :
    Memory.wfFrom lo m = true := by
  cases m with
  | nil => rfl
  | cons c m =>
    obtain ⟨a, u⟩ := c
    rw [Memory.wfFrom_cons] at hm ⊢
    exact ⟨by omega, hm.2⟩

/-- An address below every listed one reads as the reset contents. -/
theorem Memory.read_below {m : List Host.Cell} : ∀ {lo a : Nat}, Memory.wfFrom lo m = true → a < lo →
    Memory.read m a = Memory.resetByte a := by
  induction m with
  | nil => intros; rfl
  | cons c m ih =>
    obtain ⟨b, u⟩ := c
    intro lo a hm ha
    rw [Memory.wfFrom_cons] at hm
    have hab : a ≠ b := by omega
    simp only [Memory.read, hab, if_false]
    exact ih hm.2.2.2 (by omega)

/-- A write keeps the canonical form. -/
theorem Memory.wfFrom_write {m : List Host.Cell} {a : Nat} {u : Byte} (ha : a ≤ 0xFFF) :
    ∀ {lo : Nat}, lo ≤ a → Memory.wfFrom lo m = true → Memory.wfFrom lo (Memory.write m a u) = true := by
  induction m with
  | nil =>
    intro lo hl _
    by_cases hu : u = Memory.resetByte a
    · simp [Memory.write, hu, Memory.wfFrom]
    · simp only [Memory.write, hu, if_false]
      exact Memory.wfFrom_cons.2 ⟨hl, ha, hu, rfl⟩
  | cons c m ih =>
    obtain ⟨b, w⟩ := c
    intro lo hl hm
    obtain ⟨h1, h2, h3, h4⟩ := Memory.wfFrom_cons.1 hm
    simp only [Memory.write]
    split
    · split
      · exact hm
      · exact Memory.wfFrom_cons.2 ⟨hl, ha, ‹_›, Memory.wfFrom_cons.2 ⟨by omega, h2, h3, h4⟩⟩
    · split
      · split
        · exact Memory.wfFrom_mono (by omega) h4
        · subst b
          exact Memory.wfFrom_cons.2 ⟨hl, ha, ‹_›, h4⟩
      · exact Memory.wfFrom_cons.2 ⟨h1, h2, h3, ih (by omega) h4⟩

/-- A read after a write: the value written at its address, and every other address as before (R61). -/
theorem Memory.read_write {m : List Host.Cell} {a : Nat} {u : Byte} (b : Nat) :
    ∀ {lo : Nat}, Memory.wfFrom lo m = true →
      Memory.read (Memory.write m a u) b = if b = a then u else Memory.read m b := by
  induction m with
  | nil =>
    intro lo _
    by_cases hu : u = Memory.resetByte a
    · by_cases hb : b = a <;> simp [Memory.write, Memory.read, hu, hb]
    · simp [Memory.write, Memory.read, hu]
  | cons c m ih =>
    obtain ⟨d, w⟩ := c
    intro lo hm
    obtain ⟨h1, h2, h3, h4⟩ := Memory.wfFrom_cons.1 hm
    simp only [Memory.write]
    split
    · split
      · split
        · subst b
          rw [Memory.read_below (lo := a + 1) (Memory.wfFrom_cons.2 ⟨by omega, h2, h3, h4⟩) (Nat.lt_succ_self a)]
          exact ‹u = _›.symm
        · rfl
      · simp [Memory.read]
    · split
      · subst d
        split
        · rename_i hu
          by_cases hb : b = a
          · subst b
            rw [Memory.read_below h4 (Nat.lt_succ_self a)]
            simp [hu]
          · simp [Memory.read, hb]
        · by_cases hb : b = a <;> simp [Memory.read, hb]
      · by_cases hd : b = d
        · subst d
          have : b ≠ a := by omega
          simp [Memory.read, this]
        · simp [Memory.read, hd, ih h4]

/-- The canonical form is canonical: two memories in it with the same contents are the same list. -/
theorem Memory.ext_of_wfFrom {m : List Host.Cell} : ∀ {m' : List Host.Cell} {lo lo' : Nat}, Memory.wfFrom lo m = true →
    Memory.wfFrom lo' m' = true → (∀ a, Memory.read m a = Memory.read m' a) → m = m' := by
  induction m with
  | nil =>
    intro m' lo lo' _ hm' h
    cases m' with
    | nil => rfl
    | cons c m' =>
      have := (Memory.wfFrom_cons.1 hm').2.2.1
      exact absurd (by simpa [Memory.read] using (h c.1).symm) this
  | cons c m ih =>
    obtain ⟨b, u⟩ := c
    intro m' lo lo' hm hm' h
    obtain ⟨-, -, h3, h4⟩ := Memory.wfFrom_cons.1 hm
    cases m' with
    | nil => exact absurd (by simpa [Memory.read] using h b) h3
    | cons c' m' =>
      obtain ⟨b', u'⟩ := c'
      obtain ⟨-, -, h3', h4'⟩ := Memory.wfFrom_cons.1 hm'
      have lt_absurd : ¬ b < b' := fun hlt => by
        have hb := h b
        have hne : b ≠ b' := by omega
        simp only [Memory.read, if_true, hne, if_false] at hb
        exact h3 (hb.trans (Memory.read_below h4' (by omega)))
      have gt_absurd : ¬ b' < b := fun hlt => by
        have hb := h b'
        have hne : b' ≠ b := by omega
        simp only [Memory.read, if_true, hne, if_false] at hb
        exact h3' (hb.symm.trans (Memory.read_below h4 (by omega)))
      obtain rfl : b = b' := by omega
      obtain rfl : u = u' := by simpa [Memory.read] using h b
      rw [ih h4 h4' fun a => ?_]
      by_cases hab : a = b
      · subst a
        rw [Memory.read_below h4 (by omega), Memory.read_below h4' (by omega)]
      · simpa [Memory.read, hab] using h a

/-- Consecutive writes inside the address space keep the canonical form. -/
theorem Memory.wf_writeBytes {us : List Byte} : ∀ {m : List Host.Cell} {base : Nat}, Memory.wf m = true →
    base + us.length ≤ 0x1000 → Memory.wf (Memory.writeBytes m base us) = true := by
  induction us with
  | nil => intro m base hm _; exact hm
  | cons u us ih =>
    intro m base hm hr
    simp only [List.length_cons] at hr
    exact ih (Memory.wfFrom_write (by omega) (Nat.zero_le _) hm) (by omega)

/-- Consecutive writes: byte `k` of the list lands at `base + k`, and every other address is as before. -/
theorem Memory.read_writeBytes {us : List Byte} (b : Nat) : ∀ {m : List Host.Cell} {base : Nat}, Memory.wf m = true →
    base + us.length ≤ 0x1000 →
    Memory.read (Memory.writeBytes m base us) b =
      if base ≤ b ∧ b < base + us.length then us.getD (b - base) 0 else Memory.read m b := by
  induction us with
  | nil =>
    intro m base _ _
    simp only [Memory.writeBytes, List.length_nil]
    rw [if_neg (by omega)]
  | cons u us ih =>
    intro m base hm hr
    simp only [List.length_cons] at hr
    simp only [Memory.writeBytes, List.length_cons]
    rw [ih (Memory.wfFrom_write (by omega) (Nat.zero_le _) hm) (by omega), Memory.read_write b hm]
    by_cases hb : b = base
    · subst b
      simp
    · by_cases hc : base + 1 ≤ b ∧ b < base + 1 + us.length
      · have h2 : base ≤ b ∧ b < base + (us.length + 1) := by omega
        have h3 : b - base = (b - (base + 1)) + 1 := by omega
        rw [if_pos hc, if_pos h2, h3, List.getD_cons_succ]
      · have h2 : ¬(base ≤ b ∧ b < base + (us.length + 1)) := by omega
        rw [if_neg hc, if_neg h2, if_neg hb]

/-- The state's store in terms of reading one byte. -/
theorem State.byteAt_store {s : State} {base : Nat} {us : List Byte} (b : Nat) (hm : Memory.wf s.mem = true)
    (hr : base + us.length ≤ 0x1000) :
    (s.store base us).byteAt b =
      if base ≤ b ∧ b < base + us.length then us.getD (b - base) 0 else s.byteAt b :=
  Memory.read_writeBytes b hm hr

/-- The bytes read from `base` on are the bytes at `base`, `base + 1` and so on. -/
theorem Memory.getElem_readBytes (m : List Host.Cell) (n : Nat) : ∀ (base k : Nat),
    (Memory.readBytes m base n)[k]? = if k < n then some (Memory.read m (base + k)) else none := by
  induction n with
  | zero => intro base k; simp [Memory.readBytes]
  | succ n ih =>
    intro base k
    cases k with
    | zero => simp [Memory.readBytes]
    | succ k => simp [Memory.readBytes, ih, Nat.add_right_comm, Nat.add_assoc]

@[simp] theorem Memory.length_readBytes (m : List Host.Cell) (n : Nat) : ∀ base : Nat,
    (Memory.readBytes m base n).length = n := by
  induction n with
  | zero => intro base; rfl
  | succ n ih => intro base; simp [Memory.readBytes, ih]

end Sys2Proof.Machine
end

