-- ==== Sys2Proof/Laws/Ops.lean ====
section
/-! SUPPORT. What each shared operation can do, said once: the directives, a range check, a push, a pop, a fetch, the word placed
for the host, the flags, the digits, the lowest key, the countdown, the register range, and the step. -/
namespace Sys2Proof.Machine

/-- The state a result answers, when it answers one. -/
theorem advance_eq_next {s t : State} : advance s = .next t ↔ t = s.setPc (s.pc + 2) := by
  simp [advance, eq_comm]

theorem skip_eq_next {s t : State} : skip s = .next t ↔ t = s.setPc (s.pc + 4) := by simp [skip, eq_comm]

theorem hold_eq_next {s t : State} : hold s = .next t ↔ t = s := by simp [hold, eq_comm]

theorem jumpTo_eq_next {a : Word} {s t : State} : jumpTo a s = .next t ↔ t = s.setPc a := by
  simp [jumpTo, eq_comm]

theorem raise_eq_next {e : ErrorKind} {s t : State} : raise e s = .next t ↔ t = s.halted e := by
  simp [raise, eq_comm]

/-- A conditional skip adds 4 when its condition holds and 2 when not (R24). -/
theorem skipIf_eq_next {c : Bool} {s t : State} :
    skipIf c s = .next t ↔ t = s.setPc (s.pc + if c then 4 else 2) := by
  cases c <;> simp [skipIf, skip, advance, eq_comm]

theorem checkRange_of_le {last : Nat} (h : last ≤ 0xFFF) (s : State) (r : Result) : checkRange last s r = r := by
  have : ¬ last > Config.maxAddr := by simp; omega
  simp only [checkRange, this, if_false]

theorem checkRange_of_gt {last : Nat} (h : 0xFFF < last) (s : State) (r : Result) :
    checkRange last s r = raise .outOfRangeAddress s := by
  have : last > Config.maxAddr := by simp; omega
  simp only [checkRange, this, if_true]

/-- A range check either raises, above 0xFFF, or goes on. -/
theorem checkRange_eq_next {last : Nat} {s t : State} {r : Result} :
    checkRange last s r = .next t ↔
      (0xFFF < last ∧ t = s.halted .outOfRangeAddress) ∨ (last ≤ 0xFFF ∧ r = .next t) := by
  by_cases h : last ≤ 0xFFF
  · have : ¬ 0xFFF < last := by omega
    simp [checkRange_of_le h, h, this]
  · have h' : 0xFFF < last := by omega
    simp [checkRange_of_gt h', raise_eq_next, h, h']

/-- A push either finds the stack full and raises, or stores the entry and goes on. -/
theorem push_cases (u : Word) (s : State) (rest : State → Result) :
    (s.sp.val = 16 ∧ push u s rest = raise .stackOverflow s) ∨
      ∃ h : s.sp.val < 16, push u s rest =
        rest { s with stack := s.stack.set s.sp.val u, sp := ⟨s.sp.val + 1, by omega⟩ } := by
  by_cases h : s.sp.val < 16
  · exact .inr ⟨h, by simp [push, h]⟩
  · exact .inl ⟨by omega, by simp [push, h]⟩

/-- A pop either finds the stack empty and raises, or takes the top entry and goes on. -/
theorem pop_cases (s : State) (rest : Word → State → Result) :
    (s.sp.val = 0 ∧ pop s rest = raise .stackUnderflow s) ∨
      ∃ h : 0 < s.sp.val, pop s rest =
        rest (s.stack[s.sp.val - 1]'(by omega)) { s with sp := ⟨s.sp.val - 1, by omega⟩ } := by
  by_cases h : s.sp.val = 0
  · exact .inl ⟨h, by simp [pop, h]⟩
  · exact .inr ⟨by omega, by simp [pop, h]⟩

/-- A fetch reads two bytes, or none when `PC > 0xFFE` (R53). -/
theorem fetch_eq_some {s : State} {w : Word} :
    fetch s = some w ↔ s.pc.toNat ≤ 0xFFE ∧ w = joinBytes (s.byteAt s.pc.toNat) (s.byteAt (s.pc.toNat + 1)) := by
  unfold fetch
  split
  · rename_i h
    simp only [Config.maxAddr] at h
    simp only [reduceCtorEq, false_iff, not_and]
    omega
  · rename_i h
    simp only [Config.maxAddr] at h
    simp only [Option.some.injEq]
    exact ⟨fun e => ⟨by omega, e.symm⟩, fun e => e.2.symm⟩

theorem fetch_eq_none {s : State} : fetch s = none ↔ 0xFFE < s.pc.toNat := by
  unfold fetch
  split <;> rename_i h <;> simp only [Config.maxAddr] at h <;> simp only [true_iff, reduceCtorEq, false_iff] <;> omega

/-- What a step is (R39, R206): one of four cases, which exclude each other. -/
theorem step_cases (s : State) :
    (s.halt = true ∧ step s = .next s) ∨
    (s.halt = false ∧ fetch s = none ∧ step s = .next (s.halted .outOfRangeAddress)) ∨
    (s.halt = false ∧ ∃ w, fetch s = some w ∧ decode w = none ∧
      step s = .next ({ s with unk := true }.setPc (s.pc + 2))) ∨
    (s.halt = false ∧ ∃ w i, fetch s = some w ∧ decode w = some i ∧ step s = exec i s) := by
  unfold step
  cases hh : s.halt with
  | true => exact .inl ⟨rfl, by simp [hold]⟩
  | false =>
    cases hf : fetch s with
    | none => exact .inr (.inl ⟨rfl, rfl, by simp [raise]⟩)
    | some w =>
      cases hd : decode w with
      | none => exact .inr (.inr (.inl ⟨rfl, w, rfl, hd, by simp [hd, hh, unknownWord, advance]⟩))
      | some i => exact .inr (.inr (.inr ⟨rfl, w, i, rfl, hd, by simp [hd]⟩))

/-- The sum modulo 256 is the 8-bit sum. -/
theorem sumByte_eq (a b : Byte) : sumByte a b = a + b := by
  apply BitVec.eq_of_toNat_eq
  simp [sumByte]

/-- The difference modulo 256 is the 8-bit difference. -/
theorem diffByte_eq (a b : Byte) : diffByte a b = a - b := by
  apply BitVec.eq_of_toNat_eq
  have := a.isLt
  have := b.isLt
  simp [diffByte]
  omega

@[simp] theorem length_bcdDigits (u : Byte) : (bcdDigits u).length = 3 := rfl

@[simp] theorem length_regsUpTo (s : State) (x : RegIdx) : (regsUpTo s x).length = x.toNat + 1 := by
  have := x.isLt
  simp [regsUpTo]
  omega

/-- Byte `k` of the registers `V[0]` to `V[x]` is `V[k]`. -/
theorem getD_regsUpTo (s : State) (x r : RegIdx) (h : r.toNat ≤ x.toNat) :
    (regsUpTo s x).getD r.toNat 0 = s.reg r := by
  have h' : r.toNat < x.toNat + 1 := by omega
  have h'' : r.toNat < 16 := r.isLt
  simp [regsUpTo, State.reg, List.getD, h', h'']

/-- `lowest_set` of a non-zero mask is a bit that is set, with no set bit below it (R10). -/
theorem lowestSet_spec {k : Word} (h : k ≠ 0) :
    k.getLsbD (lowestSet k).toNat = true ∧ ∀ j, j < (lowestSet k).toNat → k.getLsbD j = false := by
  unfold lowestSet
  cases hf : (List.range 16).find? fun j => k.getLsbD j with
  | none =>
    refine absurd (BitVec.eq_of_getLsbD_eq fun j hj => ?_) h
    rw [List.find?_eq_none] at hf
    simpa using hf j (by simpa using hj)
  | some j =>
    obtain ⟨h1, h2, h3⟩ := List.find?_range_eq_some.1 hf
    have h2 : j < 16 := by simpa using h2
    have e : (BitVec.ofNat 8 ((some j).getD 0)).toNat = j := by simp; omega
    rw [e]
    exact ⟨h1, fun i hi => by simpa using h3 i hi⟩

/-- A timer counted down is one lower, and 0 stays 0 (R210). -/
theorem toNat_countDown (u : Byte) : (countDown u).toNat = u.toNat - 1 := by revert u; decide

/-- A 12-bit immediate as a 16-bit word has the same value (R73). -/
theorem toNat_zextAddr (a : Addr) : (zextAddr a).toNat = a.toNat := by
  have : a.toNat < 4096 := a.isLt
  simp [zextAddr]
  omega

end Sys2Proof.Machine
end

