-- ==== Sys2Proof/Laws/Display.lean ====
section
/-! SUPPORT. The framebuffer: what one sprite row and a whole sprite do to a pixel, and when they collide (R161, R162). -/
namespace Sys2Proof.Machine

/-- A sprite byte at column `x0` covers column `px` exactly when `px` is one of the eight columns from `x0` on and the
sprite bit there, bit `7 - (px - x0)`, is 1. -/
theorem getLsbD_spriteRow (x0 px : Nat) (b : Byte) (h : px < 64) :
    (spriteRow x0 b).getLsbD px = (decide (x0 ≤ px ∧ px < x0 + 8) && b.getLsbD (7 - (px - x0))) := by
  unfold spriteRow
  rw [BitVec.getLsbD_shiftLeft, BitVec.getLsbD_setWidth, BitVec.getLsbD_reverse, BitVec.getMsbD_eq_getLsbD]
  by_cases h1 : px < x0
  · have : ¬ x0 ≤ px := by omega
    simp [h1, this]
  · have h2 : x0 ≤ px := by omega
    have h3 : px - x0 < 64 := by omega
    by_cases h4 : px < x0 + 8
    · have h5 : px - x0 < 8 := by omega
      simp [h, h1, h2, h3, h4, h5]
    · have h5 : ¬ px - x0 < 8 := by omega
      simp [h4, h5]

/-- A pixel off the screen reads false. -/
theorem Framebuffer.pixel_off_screen (fb : Framebuffer) {px py : Nat} (h : 64 ≤ px ∨ 32 ≤ py) :
    fb.pixel px py = false := by
  unfold Framebuffer.pixel
  split
  · exact BitVec.getLsbD_of_ge _ _ (by omega)
  · rfl

@[simp] theorem Framebuffer.pixel_replicate_zero (px py : Nat) :
    Framebuffer.pixel (Vector.replicate 32 0#64) px py = false := by
  simp [Framebuffer.pixel]

/-- One sprite row inverts the pixels it covers and no other. -/
theorem pixel_drawRow (fb : Framebuffer) (x0 y px py : Nat) (b : Byte) :
    (drawRow fb x0 y b).1.pixel px py =
      ((fb.pixel px py) ^^ (decide (py = y ∧ py < 32) && (spriteRow x0 b).getLsbD px)) := by
  unfold drawRow Framebuffer.pixel
  by_cases hy : y < 32
  · by_cases hp : py < 32
    · by_cases e : py = y
      · subst e
        simp [hp]
      · have e' : y ≠ py := fun h => e h.symm
        simp [hy, hp, e, e']
    · simp [hp]
  · by_cases hp : py < 32
    · have e : py ≠ y := by omega
      simp [hy, hp, e]
    · simp [hp]

/-- One sprite row collides exactly when it covers a pixel that is on. -/
theorem drawRow_collides (fb : Framebuffer) (x0 y : Nat) (b : Byte) :
    (drawRow fb x0 y b).2 = true ↔
      ∃ px, px < 64 ∧ fb.pixel px y = true ∧ (spriteRow x0 b).getLsbD px = true := by
  unfold drawRow Framebuffer.pixel
  by_cases hy : y < 32
  · simp only [hy, dite_true, bne_iff_ne, ne_eq]
    constructor
    · intro h
      by_contra hc
      apply h
      apply BitVec.eq_of_getLsbD_eq
      intro k hk
      rw [BitVec.getLsbD_and, show BitVec.getLsbD (0 : BitVec 64) k = false from BitVec.getLsbD_zero]
      by_contra hk'
      simp only [Bool.not_eq_false, Bool.and_eq_true] at hk'
      exact hc ⟨k, hk, hk'.1, hk'.2⟩
    · rintro ⟨px, -, h1, h2⟩ h
      have := congrArg (fun v => v.getLsbD px) h
      simp [h1, h2] at this
  · simp [hy]

/-- The sprite rows: a pixel is inverted exactly when the row of the sprite at its screen row covers it. -/
theorem pixel_drawRows_ne_iff (bs : List Byte) : ∀ (fb : Framebuffer) (x0 y : Nat) {px py : Nat}, px < 64 → py < 32 →
    ((drawRows fb x0 y bs).1.pixel px py ≠ fb.pixel px py ↔
      ∃ r, r < bs.length ∧ py = y + r ∧ (spriteRow x0 (bs.getD r 0)).getLsbD px = true) := by
  induction bs with
  | nil => intros; simp [drawRows]
  | cons b bs ih =>
    intro fb x0 y px py hx hy
    have others := ih (drawRow fb x0 y b).1 x0 (y + 1) hx hy
    have first := pixel_drawRow fb x0 y px py b
    simp only [drawRows]
    by_cases e : py = y
    · subst e
      have same : (drawRows (drawRow fb x0 py b).1 x0 (py + 1) bs).1.pixel px py = (drawRow fb x0 py b).1.pixel px py := by
        by_contra hc
        obtain ⟨r, -, hr, -⟩ := others.1 hc
        omega
      rw [same, first]
      constructor
      · intro h
        refine ⟨0, by simp, rfl, ?_⟩
        by_contra hc
        have hc : (spriteRow x0 b).getLsbD px = false := by simpa using hc
        simp [hc] at h
      · rintro ⟨r, -, hr, hb⟩
        obtain rfl : r = 0 := by omega
        simp only [List.getD_cons_zero] at hb
        simp [hb, hy]
    · have same : (drawRow fb x0 y b).1.pixel px py = fb.pixel px py := by simp [first, e]
      rw [← same, others]
      constructor
      · rintro ⟨r, h, hr, hb⟩
        exact ⟨r + 1, by simpa using h, by omega, by simpa using hb⟩
      · rintro ⟨r, h, hr, hb⟩
        cases r with
        | zero => omega
        | succ r => exact ⟨r, by simpa using h, by omega, by simpa using hb⟩

/-- The sprite rows collide exactly when they cover a pixel that is on. -/
theorem drawRows_collides (bs : List Byte) : ∀ (fb : Framebuffer) (x0 y : Nat),
    ((drawRows fb x0 y bs).2 = true ↔
      ∃ px py, px < 64 ∧ py < 32 ∧
        (∃ r, r < bs.length ∧ py = y + r ∧ (spriteRow x0 (bs.getD r 0)).getLsbD px = true) ∧
        fb.pixel px py = true) := by
  induction bs with
  | nil => intros; simp [drawRows]
  | cons b bs ih =>
    intro fb x0 y
    simp only [drawRows, Bool.or_eq_true]
    rw [ih, drawRow_collides]
    constructor
    · rintro (⟨px, hx, hf, hb⟩ | ⟨px, py, hx, hy, ⟨r, h, hr, hb⟩, hf⟩)
      · have hy : y < 32 := by
          by_contra hc
          rw [Framebuffer.pixel_off_screen _ (by omega)] at hf
          cases hf
        exact ⟨px, y, hx, hy, ⟨0, by simp, rfl, by simpa using hb⟩, hf⟩
      · refine ⟨px, py, hx, hy, ⟨r + 1, by simpa using h, by omega, by simpa using hb⟩, ?_⟩
        have : py ≠ y := by omega
        simpa [pixel_drawRow, this] using hf
    · rintro ⟨px, py, hx, hy, ⟨r, h, hr, hb⟩, hf⟩
      cases r with
      | zero =>
        obtain rfl : py = y := by omega
        exact .inl ⟨px, hx, hf, by simpa using hb⟩
      | succ r =>
        have : py ≠ y := by omega
        exact .inr ⟨px, py, hx, hy, ⟨r, by simpa using h, by omega, by simpa using hb⟩, by simpa [pixel_drawRow, this] using hf⟩

/-- Two screens with the same pixels are the same. -/
theorem Framebuffer.ext_pixel {a b : Framebuffer} (h : ∀ px py, px < 64 → py < 32 → a.pixel px py = b.pixel px py) :
    a = b := by
  apply Vector.ext
  intro py hy
  apply BitVec.eq_of_getLsbD_eq
  intro px hx
  simpa [Framebuffer.pixel, hy] using h px py hx hy

end Sys2Proof.Machine
end

