-- ==== Sys2Proof/Laws/Exec.lean ====
section
/-! SUPPORT. What each instruction can do, said once: `exec` of it answers `t` exactly when one of its cases holds.  The proofs
about all instructions cite these instead of unfolding the meanings. -/
namespace Sys2Proof.Machine

variable {s t : State} {x y : RegIdx} {nn : Byte} {nnn : Addr} {n : Nibble}

/-- The end of a flag-setting instruction. -/
theorem writeResultThenFlag_eq_next {u : Byte} {c : Bool} :
    writeResultThenFlag x u c s = .next t ↔
      t = ((s.setReg x u).setReg vf (flagByte c)).setPc (s.pc + 2) := by
  simp [writeResultThenFlag, advance_eq_next]

theorem exec_clearScreen_iff :
    exec .clearScreen s = .next t ↔ t = { s with fb := Vector.replicate 32 0 }.setPc (s.pc + 2) := advance_eq_next

theorem exec_ret_iff :
    exec .ret s = .next t ↔
      (s.sp.val = 0 ∧ t = s.halted .stackUnderflow) ∨
      ∃ h : 0 < s.sp.val, let top := s.stack[s.sp.val - 1]'(by omega)
        (0xFFF < top.toNat ∧ t = s.halted .outOfRangeAddress) ∨
        (top.toNat ≤ 0xFFF ∧ t = { s with sp := ⟨s.sp.val - 1, by omega⟩ }.setPc top) := by
  rcases pop_cases s fun t popped => checkRange t.toNat s (jumpTo t popped) with ⟨h, e⟩ | ⟨h, e⟩
  · have : ¬ 0 < s.sp.val := by omega
    simp [exec, execReturn, e, raise_eq_next, h]
  · have h' : s.sp.val ≠ 0 := by omega
    simp only [exec, execReturn, e, checkRange_eq_next, jumpTo_eq_next, h, h', false_and, false_or, exists_true_left]

theorem exec_jump_iff :
    exec (.jump nnn) s = .next t ↔ t = s.setPc (zextAddr nnn) := jumpTo_eq_next

theorem exec_call_iff :
    exec (.call nnn) s = .next t ↔
      (s.sp.val = 16 ∧ t = s.halted .stackOverflow) ∨
      ∃ h : s.sp.val < 16,
        t = { s with stack := s.stack.set s.sp.val (s.pc + 2), sp := ⟨s.sp.val + 1, by omega⟩ }.setPc
          (zextAddr nnn) := by
  rcases push_cases (s.pc + 2) s (jumpTo (zextAddr nnn)) with ⟨h, e⟩ | ⟨h, e⟩
  · simp only [exec, execCall, e, raise_eq_next, h, true_and, Nat.lt_irrefl, IsEmpty.exists_iff, or_false]
  · have h' : s.sp.val ≠ 16 := by omega
    simp only [exec, execCall, e, jumpTo_eq_next, h, h', false_and, false_or, exists_true_left]

theorem exec_skipEqImm_iff :
    exec (.skipEqImm x nn) s = .next t ↔ t = s.setPc (s.pc + if s.reg x == nn then 4 else 2) := skipIf_eq_next

theorem exec_skipNeImm_iff :
    exec (.skipNeImm x nn) s = .next t ↔ t = s.setPc (s.pc + if s.reg x != nn then 4 else 2) := skipIf_eq_next

theorem exec_skipEqReg_iff :
    exec (.skipEqReg x y) s = .next t ↔ t = s.setPc (s.pc + if s.reg x == s.reg y then 4 else 2) := skipIf_eq_next

theorem exec_skipNeReg_iff :
    exec (.skipNeReg x y) s = .next t ↔ t = s.setPc (s.pc + if s.reg x != s.reg y then 4 else 2) := skipIf_eq_next

theorem exec_skipKeyPressed_iff :
    exec (.skipKeyPressed x) s = .next t ↔ t = s.setPc (s.pc + if keyDown s x then 4 else 2) := skipIf_eq_next

theorem exec_skipKeyNotPressed_iff :
    exec (.skipKeyNotPressed x) s = .next t ↔ t = s.setPc (s.pc + if !keyDown s x then 4 else 2) := skipIf_eq_next

theorem exec_loadImm_iff :
    exec (.loadImm x nn) s = .next t ↔ t = (s.setReg x nn).setPc (s.pc + 2) := advance_eq_next

theorem exec_addImm_iff :
    exec (.addImm x nn) s = .next t ↔ t = (s.setReg x (sumByte (s.reg x) nn)).setPc (s.pc + 2) := advance_eq_next

theorem exec_assignReg_iff :
    exec (.assignReg x y) s = .next t ↔ t = (s.setReg x (s.reg y)).setPc (s.pc + 2) := advance_eq_next

theorem exec_orReg_iff :
    exec (.orReg x y) s = .next t ↔ t = (s.setReg x (s.reg x ||| s.reg y)).setPc (s.pc + 2) := advance_eq_next

theorem exec_andReg_iff :
    exec (.andReg x y) s = .next t ↔ t = (s.setReg x (s.reg x &&& s.reg y)).setPc (s.pc + 2) := advance_eq_next

theorem exec_xorReg_iff :
    exec (.xorReg x y) s = .next t ↔ t = (s.setReg x (s.reg x ^^^ s.reg y)).setPc (s.pc + 2) := advance_eq_next

theorem exec_getDelayTimer_iff :
    exec (.getDelayTimer x) s = .next t ↔ t = (s.setReg x s.dt).setPc (s.pc + 2) := advance_eq_next

theorem exec_addReg_iff :
    exec (.addReg x y) s = .next t ↔ t =
      ((s.setReg x (sumByte (s.reg x) (s.reg y))).setReg vf (flagByte (carry (s.reg x) (s.reg y)))).setPc (s.pc + 2) := writeResultThenFlag_eq_next

theorem exec_subReg_iff :
    exec (.subReg x y) s = .next t ↔ t =
      ((s.setReg x (diffByte (s.reg x) (s.reg y))).setReg vf (flagByte (notBorrow (s.reg x) (s.reg y)))).setPc (s.pc + 2) := writeResultThenFlag_eq_next

theorem exec_shrReg_iff :
    exec (.shrReg x y) s = .next t ↔ t =
      ((s.setReg x (shrByte (shiftOperand s x y))).setReg vf (flagByte (shrFlag (shiftOperand s x y)))).setPc (s.pc + 2) := writeResultThenFlag_eq_next

theorem exec_subnReg_iff :
    exec (.subnReg x y) s = .next t ↔ t =
      ((s.setReg x (diffByte (s.reg y) (s.reg x))).setReg vf (flagByte (notBorrow (s.reg y) (s.reg x)))).setPc (s.pc + 2) := writeResultThenFlag_eq_next

theorem exec_shlReg_iff :
    exec (.shlReg x y) s = .next t ↔ t =
      ((s.setReg x (shlByte (shiftOperand s x y))).setReg vf (flagByte (shlFlag (shiftOperand s x y)))).setPc (s.pc + 2) := writeResultThenFlag_eq_next

theorem randomWith_iff {rnd : Byte} :
    randomWith rnd x nn s = .next t ↔ t = ({ s with draws := s.draws + 1 }.setReg x (rnd &&& nn)).setPc (s.pc + 2) :=
  advance_eq_next

theorem exec_random_iff :
    exec (.random x nn) s = .next t ↔
      t = ({ s with draws := s.draws + 1 }.setReg x (Config.randomByte s.draws &&& nn)).setPc (s.pc + 2) := advance_eq_next

theorem exec_setIndex_iff :
    exec (.setIndex nnn) s = .next t ↔ t = { s with i := zextAddr nnn }.setPc (s.pc + 2) := advance_eq_next

theorem exec_addToIndex_iff :
    exec (.addToIndex x) s = .next t ↔ t = { s with i := BitVec.ofNat 16 ((s.i.toNat + (s.reg x).toNat) % 65536) }.setPc (s.pc + 2) := advance_eq_next

theorem exec_fontCharAddress_iff :
    exec (.fontCharAddress x) s = .next t ↔ t = { s with i := fontAddr (s.reg x) }.setPc (s.pc + 2) := advance_eq_next

theorem exec_setDelayTimer_iff :
    exec (.setDelayTimer x) s = .next t ↔ t = { s with dt := s.reg x }.setPc (s.pc + 2) := advance_eq_next

theorem exec_setSoundTimer_iff :
    exec (.setSoundTimer x) s = .next t ↔ t = { s with st := s.reg x }.setPc (s.pc + 2) := advance_eq_next

theorem exec_jumpOffset_iff :
    exec (.jumpOffset nnn) s = .next t ↔
      (0xFFF < nnn.toNat + (s.reg 0).toNat ∧ t = s.halted .outOfRangeAddress) ∨
      (nnn.toNat + (s.reg 0).toNat ≤ 0xFFF ∧ t = s.setPc (BitVec.ofNat 16 (nnn.toNat + (s.reg 0).toNat))) := by
  simp only [exec, execJumpOffset, redirect, checkRange_eq_next, jumpTo_eq_next]

theorem exec_waitKey_iff :
    exec (.waitKey x) s = .next t ↔
      (s.keys = 0 ∧ t = s) ∨ (s.keys ≠ 0 ∧ t = (s.setReg x (lowestSet s.keys)).setPc (s.pc + 2)) := by
  by_cases h : s.keys = 0
  · simp [exec, execWaitKey, keyWaitHolds, h, hold_eq_next]
  · have e : exec (.waitKey x) s = advance (s.setReg x (lowestSet s.keys)) := by
      have h' : (s.keys == 0) = false := by simpa using h
      simp only [exec, execWaitKey, keyWaitHolds, h', Bool.false_eq_true, if_false]
    simp only [e, advance_eq_next, h, false_and, false_or, ne_eq, not_false_eq_true, true_and, State.setReg_pc]

theorem exec_storeBcd_iff :
    exec (.storeBcd x) s = .next t ↔
      (0xFFF < s.i.toNat + 2 ∧ t = s.halted .outOfRangeAddress) ∨
      (s.i.toNat + 2 ≤ 0xFFF ∧ t = (s.store s.i.toNat (bcdDigits (s.reg x))).setPc (s.pc + 2)) := by
  simp only [exec, execStoreBcd, effectiveAddr, checkRange_eq_next, advance_eq_next, Nat.add_zero, State.store_pc]

theorem exec_storeRegisters_iff :
    exec (.storeRegisters x) s = .next t ↔
      (0xFFF < s.i.toNat + x.toNat ∧ t = s.halted .outOfRangeAddress) ∨
      (s.i.toNat + x.toNat ≤ 0xFFF ∧ t = (s.store s.i.toNat (regsUpTo s x)).setPc (s.pc + 2)) := by
  simp only [exec, execStoreRegisters, effectiveAddr, checkRange_eq_next, advance_eq_next, Nat.add_zero, State.store_pc]

theorem exec_loadRegisters_iff :
    exec (.loadRegisters x) s = .next t ↔
      (0xFFF < s.i.toNat + x.toNat ∧ t = s.halted .outOfRangeAddress) ∨
      (s.i.toNat + x.toNat ≤ 0xFFF ∧ t = (loadRegsUpTo s x s.i.toNat).setPc (s.pc + 2)) := by
  simp only [exec, execLoadRegisters, effectiveAddr, checkRange_eq_next, advance_eq_next, Nat.add_zero,
    loadRegsUpTo_pc]

/-- The rows that `draw-sprite` draws, and whether they collide. -/
def spriteDrawn (x y : RegIdx) (n : Nibble) (s : State) : Framebuffer × Bool :=
  drawRows s.fb (s.reg x).toNat (s.reg y).toNat (Memory.readBytes s.mem s.i.toNat n.toNat)

theorem drawSpriteAt_eq_next :
    drawSpriteAt x y n s = .next t ↔
      t = ({ s with fb := (spriteDrawn x y n s).1 }.setReg vf (flagByte (spriteDrawn x y n s).2)).setPc (s.pc + 2) :=
  advance_eq_next

theorem exec_drawSprite_iff :
    exec (.drawSprite x y n) s = .next t ↔
      (0 < n.toNat ∧ 0xFFF < s.i.toNat + n.toNat - 1 ∧ t = s.halted .outOfRangeAddress) ∨
      ((n.toNat = 0 ∨ s.i.toNat + n.toNat - 1 ≤ 0xFFF) ∧
        t = ({ s with fb := (spriteDrawn x y n s).1 }.setReg vf (flagByte (spriteDrawn x y n s).2)).setPc (s.pc + 2)) := by
  rw [← drawSpriteAt_eq_next]
  by_cases h : n.toNat = 0
  · simp [exec, execDrawSprite, h]
  · have e : s.i.toNat + (n.toNat - 1) = s.i.toNat + n.toNat - 1 := by omega
    simp only [exec, execDrawSprite, effectiveAddr, h, if_false, checkRange_eq_next, e, Nat.pos_of_ne_zero h,
      true_and, false_or]

end Sys2Proof.Machine
end

