-- ==== Sys2Proof/Laws/PerInstr.lean ====
section
/-! SUPPORT. The family `Encoding`: the word of every instruction matches the row of the opcode table that bears its name (R75). -/
namespace Sys2Proof.Laws

/-- Some row of the opcode table has the instruction's name and matches its word. -/
def Encoding.Statement (i : Instr) : Prop := ∃ r ∈ opcodeTable, r.name = i.name ∧ rowMatches r (encode i) = true

/-- What a row's mask leaves of the fields of its format: nothing. -/
theorem mask_addr (a : Addr) : placeLow 12 a &&& 0xF000#16 = 0 := by
  ext k hk
  by_cases h : k < 12
  · have : k = 0 ∨ k = 1 ∨ k = 2 ∨ k = 3 ∨ k = 4 ∨ k = 5 ∨ k = 6 ∨ k = 7 ∨ k = 8 ∨ k = 9 ∨ k = 10 ∨ k = 11 := by omega
    rcases this with rfl | rfl | rfl | rfl | rfl | rfl | rfl | rfl | rfl | rfl | rfl | rfl <;> simp
  · have : a.getLsbD k = false := BitVec.getLsbD_of_ge _ _ (by omega)
    simp [placeLow, this]

theorem mask_byte (nn : Byte) : placeLow 8 nn &&& 0xF000#16 = 0 := by revert nn; decide

theorem mask_nibble (n : Nibble) : placeLow 4 n &&& 0xF000#16 = 0 := by revert n; decide

theorem mask_x (x : RegIdx) :
    placeX x &&& 0xF000#16 = 0 ∧ placeX x &&& 0xF00F#16 = 0 ∧ placeX x &&& 0xF0FF#16 = 0 := by revert x; decide

theorem mask_y (y : RegIdx) : placeY y &&& 0xF000#16 = 0 ∧ placeY y &&& 0xF00F#16 = 0 := by revert y; decide

/-- A mask distributes over the parts of a word. -/
theorem or_mask (a b m : Word) : (a ||| b) &&& m = a &&& m ||| b &&& m := by
  ext k hk
  simp [Bool.and_or_distrib_right]

theorem rowMatches_nnn {value : Word} (hv : value &&& 0xF000#16 = value) (name : String) (a : Addr) :
    rowMatches ⟨name, value, 0xF000#16⟩ (encodeNnn value a) = true := by
  simp [rowMatches, encodeNnn, or_mask, mask_addr, hv]

theorem rowMatches_xnn {value : Word} (hv : value &&& 0xF000#16 = value) (name : String) (x : RegIdx) (nn : Byte) :
    rowMatches ⟨name, value, 0xF000#16⟩ (encodeXnn value x nn) = true := by
  simp [rowMatches, encodeXnn, or_mask, mask_x, mask_byte, hv]

theorem rowMatches_xy {value : Word} (hv : value &&& 0xF00F#16 = value) (name : String) (x y : RegIdx) :
    rowMatches ⟨name, value, 0xF00F#16⟩ (encodeXy value x y) = true := by
  simp [rowMatches, encodeXy, or_mask, mask_x, mask_y, hv]

theorem rowMatches_xyn {value : Word} (hv : value &&& 0xF000#16 = value) (name : String) (x y : RegIdx) (n : Nibble) :
    rowMatches ⟨name, value, 0xF000#16⟩ (encodeXyn value x y n) = true := by
  simp [rowMatches, encodeXyn, or_mask, mask_x, mask_y, mask_nibble, hv]

theorem rowMatches_x {value : Word} (hv : value &&& 0xF0FF#16 = value) (name : String) (x : RegIdx) :
    rowMatches ⟨name, value, 0xF0FF#16⟩ (encodeX value x) = true := by
  simp [rowMatches, encodeX, or_mask, mask_x, hv]

theorem Encoding.clearScreen : Encoding.Statement .clearScreen :=
  ⟨⟨"clear-screen", 0x00E0#16, 0xFFFF#16⟩, by decide, rfl, by decide⟩

theorem Encoding.ret : Encoding.Statement .ret := ⟨⟨"return", 0x00EE#16, 0xFFFF#16⟩, by decide, rfl, by decide⟩

theorem Encoding.jump (nnn : Addr) : Encoding.Statement (.jump nnn) :=
  ⟨⟨"jump", 0x1000#16, 0xF000#16⟩, by decide, rfl, rowMatches_nnn (by decide) _ nnn⟩

theorem Encoding.call (nnn : Addr) : Encoding.Statement (.call nnn) :=
  ⟨⟨"call", 0x2000#16, 0xF000#16⟩, by decide, rfl, rowMatches_nnn (by decide) _ nnn⟩

theorem Encoding.skipEqImm (x : RegIdx) (nn : Byte) : Encoding.Statement (.skipEqImm x nn) :=
  ⟨⟨"skip-eq-imm", 0x3000#16, 0xF000#16⟩, by decide, rfl, rowMatches_xnn (by decide) _ x nn⟩

theorem Encoding.skipNeImm (x : RegIdx) (nn : Byte) : Encoding.Statement (.skipNeImm x nn) :=
  ⟨⟨"skip-ne-imm", 0x4000#16, 0xF000#16⟩, by decide, rfl, rowMatches_xnn (by decide) _ x nn⟩

theorem Encoding.skipEqReg (x y : RegIdx) : Encoding.Statement (.skipEqReg x y) :=
  ⟨⟨"skip-eq-reg", 0x5000#16, 0xF00F#16⟩, by decide, rfl, rowMatches_xy (by decide) _ x y⟩

theorem Encoding.loadImm (x : RegIdx) (nn : Byte) : Encoding.Statement (.loadImm x nn) :=
  ⟨⟨"load-imm", 0x6000#16, 0xF000#16⟩, by decide, rfl, rowMatches_xnn (by decide) _ x nn⟩

theorem Encoding.addImm (x : RegIdx) (nn : Byte) : Encoding.Statement (.addImm x nn) :=
  ⟨⟨"add-imm", 0x7000#16, 0xF000#16⟩, by decide, rfl, rowMatches_xnn (by decide) _ x nn⟩

theorem Encoding.assignReg (x y : RegIdx) : Encoding.Statement (.assignReg x y) :=
  ⟨⟨"assign-reg", 0x8000#16, 0xF00F#16⟩, by decide, rfl, rowMatches_xy (by decide) _ x y⟩

theorem Encoding.orReg (x y : RegIdx) : Encoding.Statement (.orReg x y) :=
  ⟨⟨"or-reg", 0x8001#16, 0xF00F#16⟩, by decide, rfl, rowMatches_xy (by decide) _ x y⟩

theorem Encoding.andReg (x y : RegIdx) : Encoding.Statement (.andReg x y) :=
  ⟨⟨"and-reg", 0x8002#16, 0xF00F#16⟩, by decide, rfl, rowMatches_xy (by decide) _ x y⟩

theorem Encoding.xorReg (x y : RegIdx) : Encoding.Statement (.xorReg x y) :=
  ⟨⟨"xor-reg", 0x8003#16, 0xF00F#16⟩, by decide, rfl, rowMatches_xy (by decide) _ x y⟩

theorem Encoding.addReg (x y : RegIdx) : Encoding.Statement (.addReg x y) :=
  ⟨⟨"add-reg", 0x8004#16, 0xF00F#16⟩, by decide, rfl, rowMatches_xy (by decide) _ x y⟩

theorem Encoding.subReg (x y : RegIdx) : Encoding.Statement (.subReg x y) :=
  ⟨⟨"sub-reg", 0x8005#16, 0xF00F#16⟩, by decide, rfl, rowMatches_xy (by decide) _ x y⟩

theorem Encoding.shrReg (x y : RegIdx) : Encoding.Statement (.shrReg x y) :=
  ⟨⟨"shr-reg", 0x8006#16, 0xF00F#16⟩, by decide, rfl, rowMatches_xy (by decide) _ x y⟩

theorem Encoding.subnReg (x y : RegIdx) : Encoding.Statement (.subnReg x y) :=
  ⟨⟨"subn-reg", 0x8007#16, 0xF00F#16⟩, by decide, rfl, rowMatches_xy (by decide) _ x y⟩

theorem Encoding.shlReg (x y : RegIdx) : Encoding.Statement (.shlReg x y) :=
  ⟨⟨"shl-reg", 0x800E#16, 0xF00F#16⟩, by decide, rfl, rowMatches_xy (by decide) _ x y⟩

theorem Encoding.skipNeReg (x y : RegIdx) : Encoding.Statement (.skipNeReg x y) :=
  ⟨⟨"skip-ne-reg", 0x9000#16, 0xF00F#16⟩, by decide, rfl, rowMatches_xy (by decide) _ x y⟩

theorem Encoding.setIndex (nnn : Addr) : Encoding.Statement (.setIndex nnn) :=
  ⟨⟨"set-index", 0xA000#16, 0xF000#16⟩, by decide, rfl, rowMatches_nnn (by decide) _ nnn⟩

theorem Encoding.jumpOffset (nnn : Addr) : Encoding.Statement (.jumpOffset nnn) :=
  ⟨⟨"jump-offset", 0xB000#16, 0xF000#16⟩, by decide, rfl, rowMatches_nnn (by decide) _ nnn⟩

theorem Encoding.random (x : RegIdx) (nn : Byte) : Encoding.Statement (.random x nn) :=
  ⟨⟨"random", 0xC000#16, 0xF000#16⟩, by decide, rfl, rowMatches_xnn (by decide) _ x nn⟩

theorem Encoding.drawSprite (x y : RegIdx) (n : Nibble) : Encoding.Statement (.drawSprite x y n) :=
  ⟨⟨"draw-sprite", 0xD000#16, 0xF000#16⟩, by decide, rfl, rowMatches_xyn (by decide) _ x y n⟩

theorem Encoding.skipKeyPressed (x : RegIdx) : Encoding.Statement (.skipKeyPressed x) :=
  ⟨⟨"skip-key-pressed", 0xE09E#16, 0xF0FF#16⟩, by decide, rfl, rowMatches_x (by decide) _ x⟩

theorem Encoding.skipKeyNotPressed (x : RegIdx) : Encoding.Statement (.skipKeyNotPressed x) :=
  ⟨⟨"skip-key-not-pressed", 0xE0A1#16, 0xF0FF#16⟩, by decide, rfl, rowMatches_x (by decide) _ x⟩

theorem Encoding.getDelayTimer (x : RegIdx) : Encoding.Statement (.getDelayTimer x) :=
  ⟨⟨"get-delay-timer", 0xF007#16, 0xF0FF#16⟩, by decide, rfl, rowMatches_x (by decide) _ x⟩

theorem Encoding.waitKey (x : RegIdx) : Encoding.Statement (.waitKey x) :=
  ⟨⟨"wait-key", 0xF00A#16, 0xF0FF#16⟩, by decide, rfl, rowMatches_x (by decide) _ x⟩

theorem Encoding.setDelayTimer (x : RegIdx) : Encoding.Statement (.setDelayTimer x) :=
  ⟨⟨"set-delay-timer", 0xF015#16, 0xF0FF#16⟩, by decide, rfl, rowMatches_x (by decide) _ x⟩

theorem Encoding.setSoundTimer (x : RegIdx) : Encoding.Statement (.setSoundTimer x) :=
  ⟨⟨"set-sound-timer", 0xF018#16, 0xF0FF#16⟩, by decide, rfl, rowMatches_x (by decide) _ x⟩

theorem Encoding.addToIndex (x : RegIdx) : Encoding.Statement (.addToIndex x) :=
  ⟨⟨"add-to-index", 0xF01E#16, 0xF0FF#16⟩, by decide, rfl, rowMatches_x (by decide) _ x⟩

theorem Encoding.fontCharAddress (x : RegIdx) : Encoding.Statement (.fontCharAddress x) :=
  ⟨⟨"font-char-address", 0xF029#16, 0xF0FF#16⟩, by decide, rfl, rowMatches_x (by decide) _ x⟩

theorem Encoding.storeBcd (x : RegIdx) : Encoding.Statement (.storeBcd x) :=
  ⟨⟨"store-bcd", 0xF033#16, 0xF0FF#16⟩, by decide, rfl, rowMatches_x (by decide) _ x⟩

theorem Encoding.storeRegisters (x : RegIdx) : Encoding.Statement (.storeRegisters x) :=
  ⟨⟨"store-registers", 0xF055#16, 0xF0FF#16⟩, by decide, rfl, rowMatches_x (by decide) _ x⟩

theorem Encoding.loadRegisters (x : RegIdx) : Encoding.Statement (.loadRegisters x) :=
  ⟨⟨"load-registers", 0xF065#16, 0xF0FF#16⟩, by decide, rfl, rowMatches_x (by decide) _ x⟩

end Sys2Proof.Laws
end

