-- ==== Sys2Proof/Tests/Slice0.lean ====
section
/-! SUPPORT. Tests.  Every expected value is from the spec: the vectors of spec/95_test_vectors.md, whose ids stand beside them (E,
F, A, M, G, K, T, X, L, P), or a sentence of a rule.  A theorem `test_witness_<Name>` shows that the hypotheses of
`Obligations.<Name>` can be met, clause by clause at the ends of each range. -/
namespace Sys2Proof.Tests
open Sys2Proof.Machine Sys2Proof.Safety Sys2Proof.Claims

/-! ## Well-formedness: a term that each check refuses (R81) -/

/-- Whether a written instruction is refused by the given check. -/
def refusedBy (e : SourceError) (name : String) (operands : List Nat) : Bool :=
  match (SourceInstr.mk name operands).check with
  | .ok _ => false
  | .error e' => e == e'

theorem test_check_refuses_unknown_name : refusedBy .unknownName "sys" [0x123] = true := by decide
theorem test_check_refuses_operand_count : refusedBy .wrongOperandCount "add-reg" [1] = true := by decide
theorem test_check_refuses_operand_of_return : refusedBy .wrongOperandCount "return" [0] = true := by decide
theorem test_check_refuses_register_16 : refusedBy .registerTooLarge "add-reg" [1, 16] = true := by decide
theorem test_check_refuses_nn_256 : refusedBy .byteTooLarge "load-imm" [1, 256] = true := by decide
theorem test_check_refuses_nnn_4096 : refusedBy .addressTooLarge "jump" [0x1000] = true := by decide
theorem test_check_refuses_n_16 : refusedBy .nibbleTooLarge "draw-sprite" [0, 1, 16] = true := by decide
theorem test_check_accepts_largest_operands :
    (SourceInstr.mk "draw-sprite" [15, 15, 15]).wellFormed = true ∧ (SourceInstr.mk "jump" [0xFFF]).wellFormed = true ∧
    (SourceInstr.mk "skip-eq-imm" [15, 255]).wellFormed = true := by decide

/-! ## Decoding: a word of every row, written from the patterns of R75 (vectors E1 to E25) -/

theorem test_decode_system_words :
    decodeTableWord 16 0x00E0 = some .clearScreen ∧ decodeTableWord 16 0x00EE = some .ret := by decide

theorem test_decode_address_family :
    decodeTableWord 16 0x1ABC = some (.jump 0xABC) ∧ decodeTableWord 16 0x2300 = some (.call 0x300) ∧
    decodeTableWord 16 0xAFFF = some (.setIndex 0xFFF) ∧ decodeTableWord 16 0xBF01 = some (.jumpOffset 0xF01) := by decide

theorem test_decode_immediate_family :
    decodeTableWord 16 0x3A7F = some (.skipEqImm 10 0x7F) ∧ decodeTableWord 16 0x4310 = some (.skipNeImm 3 0x10) ∧
    decodeTableWord 16 0x6A2F = some (.loadImm 10 0x2F) ∧ decodeTableWord 16 0x7120 = some (.addImm 1 0x20) ∧
    decodeTableWord 16 0xC30F = some (.random 3 0x0F) := by decide

theorem test_decode_register_family :
    decodeTableWord 16 0x5AB0 = some (.skipEqReg 10 11) ∧ decodeTableWord 16 0x8120 = some (.assignReg 1 2) ∧
    decodeTableWord 16 0x8121 = some (.orReg 1 2) ∧ decodeTableWord 16 0x8122 = some (.andReg 1 2) ∧
    decodeTableWord 16 0x8123 = some (.xorReg 1 2) ∧ decodeTableWord 16 0x8AB4 = some (.addReg 10 11) ∧
    decodeTableWord 16 0x8125 = some (.subReg 1 2) ∧ decodeTableWord 16 0x8126 = some (.shrReg 1 2) ∧
    decodeTableWord 16 0x8127 = some (.subnReg 1 2) ∧ decodeTableWord 16 0x8ABE = some (.shlReg 10 11) ∧
    decodeTableWord 16 0x9AB0 = some (.skipNeReg 10 11) := by decide

theorem test_decode_draw_sprite : decodeTableWord 16 0b1101000100101111 = some (.drawSprite 1 2 15) := by decide

theorem test_decode_key_family :
    decodeTableWord 16 0xE19E = some (.skipKeyPressed 1) ∧ decodeTableWord 16 0xE1A1 = some (.skipKeyNotPressed 1) := by
  decide

theorem test_decode_f_family :
    decodeTableWord 16 0xF307 = some (.getDelayTimer 3) ∧ decodeTableWord 16 0xF50A = some (.waitKey 5) ∧
    decodeTableWord 16 0xF315 = some (.setDelayTimer 3) ∧ decodeTableWord 16 0xF318 = some (.setSoundTimer 3) ∧
    decodeTableWord 16 0xFF1E = some (.addToIndex 15) ∧ decodeTableWord 16 0xF429 = some (.fontCharAddress 4) ∧
    decodeTableWord 16 0xF533 = some (.storeBcd 5) ∧ decodeTableWord 16 0xF055 = some (.storeRegisters 0) ∧
    decodeTableWord 16 0xFA65 = some (.loadRegisters 10) := by decide

theorem test_decode_unknown_words :
    ∀ w ∈ [0x00E1, 0x0000, 0x00FF, 0x5AB1, 0x8AB8, 0x8ABF, 0x9ABF, 0xE19F, 0xE000, 0xFA66, 0xF000, 0xFFFF],
      decodeTableWord 16 w = none := by decide

/-- The byte at the lower address is the high byte, and the bytes after the instruction are left (R53). -/
theorem test_decode_bytes_high_byte_first : decodeBytes [0x12, 0x34, 0x56] = .ok (.jump 0x234, [0x56]) := rfl
theorem test_decode_bytes_truncated : decodeBytes [0x12] = .error .truncated := rfl
theorem test_decode_bytes_unknown : decodeBytes [0x51, 0x21] = .error (.unknownOpcode 0x5121) := rfl

theorem test_encode_words :
    encode (.drawSprite 0 1 5) = 0xD015 ∧ encode (.jump 0x2A0) = 0x12A0 ∧ encode (.skipEqImm 3 0x10) = 0x3310 ∧
    encode (.addReg 1 2) = 0x8124 ∧ encode (.storeRegisters 4) = 0xF455 := by decide

theorem test_opcode_table_has_34_rows : opcodeTable.length = 34 := by decide

/-! ## The assembler (R81, R82) -/

/-- Whether a program assembles to the image. -/
def assemblesTo (p : List Assembler.Line) (image : List Byte) : Bool :=
  match Assembler.assemble p with
  | .ok bs => bs == image
  | .error _ => false

/-- Program P1, with its labels, against its image. -/
theorem test_assemble_p1 :
    assemblesTo
      [.instr "load-imm" [.num 0, .num 0], .instr "load-imm" [.num 1, .num 1], .label "loop",
       .instr "add-reg" [.v 0, .v 1], .instr "add-imm" [.num 1, .num 1], .instr "skip-eq-imm" [.num 1, .num 6],
       .instr "jump" [.label "loop"], .label "done", .instr "jump" [.label "done"]]
      [0x60, 0x00, 0x61, 0x01, 0x80, 0x14, 0x71, 0x01, 0x31, 0x06, 0x12, 0x04, 0x12, 0x0C] = true := by decide

/-- Customary mnemonics are synonyms, and `.byte` places its bytes (R82). -/
theorem test_assemble_customary :
    assemblesTo [.instr "LD" [.sym "I", .num 0x300], .instr "DRW" [.v 0, .v 1, .num 5], .byte [0xF0, 0x90]]
      [0xA3, 0x00, 0xD0, 0x15, 0xF0, 0x90] = true := by decide

/-! ## One step -/

/-- Whether one step from `s`, with the word `w` at `PC`, answers a state with the property. -/
def after (s : State) (w : Nat) (p : State → Bool) : Bool :=
  match step (s.withFetchWord 16 w) with
  | .next t => p t
  | _ => false

/-- The reset state with some registers set. -/
def withRegs (l : List (RegIdx × Byte)) : State := l.foldl (fun s p => s.setReg p.1 p.2) State.reset

/-- The reset state with registers, the index and bytes from an address on. -/
def withMem (l : List (RegIdx × Byte)) (i : Word) (base : Nat) (bs : List Byte) : State :=
  { withRegs l with i := i }.store base bs

/-- A screen row with the pixels of the listed columns on. -/
def rowWith (columns : List Nat) : BitVec 64 := columns.foldl (fun row px => row ||| (1#64 <<< px)) 0

/-- Whether the pixels that are on are exactly those of row 0 at the listed columns. -/
def screenIs (t : State) (columns : List Nat) : Bool := t.fb == (Vector.replicate 32 0).set 0 (rowWith columns)

/-! ### Control flow -/

/-- F1: the jump to 0xFFF succeeds; X5: and the next fetch faults, `PC` unchanged. -/
theorem test_jump_f1 :
    after State.reset 0x1FFF (fun t => t.pc == 0xFFF && t.status == (false, 0, false) &&
      match step t with | .next u => u.pc == 0xFFF && u.status == (true, 1, false) | _ => false) = true := by decide
theorem test_call_f5 :
    after State.reset 0x2300 (fun t => t.pc == 0x300 && t.sp == 1 && t.stack[0] == 0x202) = true := by decide
theorem test_call_overflow_f7 :
    after { State.reset with sp := 16 } 0x2200 (fun t => t.pc == 0x200 && t.sp == 16 && t.status == (true, 2, false)) =
      true := by decide
theorem test_return_f4 :
    after { State.reset with sp := 2, stack := (State.reset.stack.set 1 0x204).set 0 0x999 } 0x00EE
      (fun t => t.pc == 0x204 && t.sp == 1 && t.stack[1] == 0x204) = true := by decide
theorem test_return_underflow_f3 :
    after State.reset 0x00EE (fun t => t.pc == 0x200 && t.sp == 0 && t.status == (true, 3, false)) = true := by decide
theorem test_jump_offset_f8 : after (withRegs [(0, 0xFF)]) 0xBF00 (fun t => t.pc == 0xFFF && !t.halt) = true := by decide
theorem test_jump_offset_f9 :
    after (withRegs [(0, 0xFF)]) 0xBF01 (fun t => t.pc == 0x200 && t.status == (true, 1, false)) = true := by decide
theorem test_skip_eq_imm_f12_f13 :
    after (withRegs [(3, 0x10)]) 0x3310 (·.pc == 0x204) = true ∧
    after (withRegs [(3, 0x11)]) 0x3310 (·.pc == 0x202) = true := by decide
theorem test_skip_eq_imm_f21 :
    after { withRegs [(3, 0x10)] with pc := 0xFFC } 0x3310 (fun t => t.pc == 0x1000 && !t.halt) = true := by decide
theorem test_skip_ne_imm_f14_f15 :
    after (withRegs [(3, 0x10)]) 0x4310 (·.pc == 0x202) = true ∧
    after (withRegs [(3, 0x11)]) 0x4310 (·.pc == 0x204) = true := by decide
theorem test_skip_eq_reg_f18_f19 :
    after (withRegs [(1, 3), (2, 3)]) 0x5120 (·.pc == 0x204) = true ∧
    after (withRegs [(1, 3), (2, 4)]) 0x5120 (·.pc == 0x202) = true := by decide
theorem test_skip_ne_reg_f20_f17 :
    after (withRegs [(1, 3), (2, 4)]) 0x9120 (·.pc == 0x204) = true ∧
    after (withRegs [(7, 0x5A)]) 0x9770 (·.pc == 0x202) = true := by decide

/-! ### Arithmetic and logic -/

/-- Whether `V1`, `V2` and VF end at the given values from `V1 = a`, `V2 = b`, `VF = 0xAA`. -/
def alu (a b : Byte) (w : Nat) (a' f' : Byte) : Bool :=
  after (withRegs [(1, a), (2, b), (15, 0xAA)]) w fun t =>
    t.reg 1 == a' && t.reg 2 == b && t.reg 15 == f' && t.pc == 0x202

theorem test_load_imm_a1 : alu 0 0 0x6155 0x55 0xAA = true := by decide
theorem test_add_imm_a2_a3 : alu 0xFF 0 0x7101 0 0xAA = true ∧ alu 0xFF 0 0x71FF 0xFE 0xAA = true := by decide
theorem test_assign_reg_a5 : alu 0x11 0x55 0x8120 0x55 0xAA = true := by decide
theorem test_or_reg_a6 : alu 0xF0 0x0F 0x8121 0xFF 0xAA = true := by decide
theorem test_and_reg_a7 : alu 0xF0 0x3C 0x8122 0x30 0xAA = true := by decide
theorem test_xor_reg_a8 : alu 0xF0 0x3C 0x8123 0xCC 0xAA = true := by decide
theorem test_add_reg_a11_a12 : alu 0xFF 0 0x8124 0xFF 0 = true ∧ alu 0xFF 1 0x8124 0 1 = true := by decide
theorem test_sub_reg_a20_a22 : alu 5 7 0x8125 0xFE 0 = true ∧ alu 7 7 0x8125 0 1 = true := by decide
theorem test_shr_reg_a30_a33 : alu 5 0x77 0x8126 2 1 = true ∧ alu 0xFF 0x77 0x8126 0x7F 1 = true := by decide
theorem test_subn_reg_a40_a41 : alu 5 7 0x8127 2 1 = true ∧ alu 7 5 0x8127 0xFE 0 = true := by decide
theorem test_shl_reg_a50_a52 : alu 0x81 0x77 0x812E 2 1 = true ∧ alu 0x40 0x77 0x812E 0x80 0 = true := by decide

/-- A60, A63, A65: VF as destination ends as the flag; VF as source is read before it is overwritten. -/
theorem test_flag_register_as_operand :
    after (withRegs [(15, 0xF0), (2, 0x20)]) 0x8F24 (·.reg 15 == 1) = true ∧
    after (withRegs [(15, 3)]) 0x8F26 (·.reg 15 == 1) = true ∧
    after (withRegs [(1, 1), (15, 2)]) 0x81F4 (fun t => t.reg 1 == 3 && t.reg 15 == 0) = true := by decide

/-- A80, A81: the operand of a shift for `SHIFT_USES_VY = true`. -/
theorem test_shift_operand_with_vy :
    shrByte (shiftOperandOf true (withRegs [(1, 5), (2, 0x77)]) 1 2) = 0x3B ∧
    shlByte (shiftOperandOf true (withRegs [(1, 5), (2, 0x81)]) 1 2) = 2 := by decide

/-- A90 and A92: the drawn byte AND `nn`; with `nn = 0` the step's own free byte does not matter. -/
theorem test_random_a90 :
    (match execWith 0xA7 (.random 3 0x0F) (withRegs [(15, 0xAA)]) with
     | .next t => t.reg 3 == 7 && t.reg 15 == 0xAA && t.pc == 0x202
     | _ => false) = true := by decide
theorem test_random_a92 : ∃ t, exec (.random 3 0) State.reset = .next t ∧ t.reg 3 = 0 ∧ t.pc = 0x202 :=
  ⟨_, rfl, by simp [State.reg, State.setPc, State.setReg], rfl⟩

/-! ### Index register and memory -/

theorem test_set_index_m1 : after State.reset 0xAFFF (fun t => t.i == 0xFFF && t.pc == 0x202) = true := by decide
theorem test_add_to_index_m2_m2b :
    after { withRegs [(2, 2), (15, 0xAA)] with i := 0xFFFF } 0xF21E (fun t => t.i == 1 && t.reg 15 == 0xAA) = true ∧
    after { withRegs [(2, 0x20)] with i := 0xFF0 } 0xF21E (fun t => t.i == 0x1010 && !t.halt) = true := by decide
theorem test_font_char_address_m5_m6 :
    after (withRegs [(4, 0x0F)]) 0xF429 (·.i == 0x4B) = true ∧
    after (withRegs [(4, 0x1A)]) 0xF429 (·.i == 0x32) = true := by decide
theorem test_store_bcd_m10_m20 :
    after (withMem [(5, 255)] 0x300 0 []) 0xF533 (fun t => Memory.readBytes t.mem 0x300 3 == [2, 5, 5]) = true ∧
    after (withMem [(5, 123)] 0xFFD 0 []) 0xF533 (fun t => Memory.readBytes t.mem 0xFFD 3 == [1, 2, 3]) = true := by decide
theorem test_store_bcd_m21 :
    after (withMem [(5, 123)] 0xFFE 0xFFE [0xEE, 0xEE]) 0xF533
      (fun t => Memory.readBytes t.mem 0xFFE 2 == [0xEE, 0xEE] && t.pc == 0x200 && t.status == (true, 1, false)) =
      true := by decide

/-- `V[i] = 0x10 + i`. -/
def ramp : List (RegIdx × Byte) := (List.range 16).map fun k => (BitVec.ofNat 4 k, BitVec.ofNat 8 (0x10 + k))

theorem test_store_registers_m30 :
    after (withMem ramp 0xFF0 0 []) 0xFF55
      (fun t => Memory.readBytes t.mem 0xFF0 16 == ramp.map (·.2) && t.i == 0xFF0) = true := by decide
theorem test_store_registers_m31 :
    after (withMem ramp 0xFF1 0 []) 0xFF55 (fun t => t.byteAt 0xFF1 == 0 && t.status == (true, 1, false)) = true := by decide
theorem test_load_registers_m34 :
    after (withMem [(3, 0x33)] 0x400 0x400 [0xA0, 0xA1, 0xA2, 0xA3]) 0xF265
      (fun t => t.reg 0 == 0xA0 && t.reg 2 == 0xA2 && t.reg 3 == 0x33 && t.i == 0x400) = true := by decide
theorem test_load_registers_m37 :
    after (withMem [(0, 0x77)] 0xFFF 0xFFF [0x5A]) 0xF165 (fun t => t.reg 0 == 0x77 && t.status == (true, 1, false)) =
      true := by decide

/-- M38: the font is not write-protected (R59). -/
theorem test_font_can_be_overwritten :
    State.reset.byteAt 0 = 0xF0 ∧ after State.reset 0xF055 (·.byteAt 0 == 0) = true := by decide

/-! ### Display -/

theorem test_clear_screen_g0 :
    after { withRegs [(15, 0xAA)] with fb := Vector.replicate 32 0xFFFF } 0x00E0
      (fun t => screenIs t [] && t.reg 15 == 0xAA) = true := by decide
/-- Clipped at the right edge; and the last pixel, `FB[2047]`. -/
theorem test_draw_sprite_g2_g6 :
    after (withMem [(0, 60), (15, 0xAA)] 0x300 0x300 [0xFF]) 0xD011
      (fun t => screenIs t [60, 61, 62, 63] && t.reg 15 == 0) = true ∧
    after (withMem [(0, 63), (1, 31)] 0x300 0x300 [0x80]) 0xD011 (fun t => t.fbRead 2047 && !t.fbRead 2046) = true := by
  decide
theorem test_draw_sprite_g10_collides :
    after { withMem [] 0x300 0x300 [0xF0] with fb := (Vector.replicate 32 0).set 0 (rowWith [0, 1, 9]) } 0xD011
      (fun t => screenIs t [2, 3, 9] && t.reg 15 == 1 && t.fbRead 2 && !t.fbRead 0) = true := by decide

/-! ### Keys and timers -/

theorem test_skip_key_pressed_k1_k3 :
    after { withRegs [(2, 5)] with keys := 0x0020 } 0xE29E (·.pc == 0x204) = true ∧
    after { withRegs [(2, 0x13)] with keys := 0x0008 } 0xE29E (·.pc == 0x204) = true := by decide
theorem test_skip_key_not_pressed_k2_k4 :
    after { withRegs [(2, 5)] with keys := 0 } 0xE2A1 (·.pc == 0x204) = true ∧
    after { withRegs [(2, 15)] with keys := 0x8000 } 0xE2A1 (·.pc == 0x202) = true := by decide
theorem test_wait_key_k10 :
    after (withRegs [(5, 0xEE)]) 0xF50A (fun t => t.reg 5 == 0xEE && t.pc == 0x200) = true := by decide
theorem test_wait_key_k12_k14 :
    after { withRegs [(5, 0xEE)] with keys := 0x8000 } 0xF50A (fun t => t.reg 5 == 0x0F && t.pc == 0x202) = true ∧
    after { withRegs [(5, 0xEE)] with keys := 0x0090 } 0xF50A (fun t => t.reg 5 == 4 && t.pc == 0x202) = true := by decide
theorem test_get_delay_timer_k20 :
    after { State.reset with dt := 0x3C } 0xF107 (fun t => t.reg 1 == 0x3C && t.dt == 0x3C) = true := by decide
theorem test_set_delay_timer_k21 : after (withRegs [(1, 0xFF)]) 0xF115 (·.dt == 0xFF) = true := by decide
theorem test_set_sound_timer_k22_k23 :
    after (withRegs [(1, 1)]) 0xF118 (fun t => t.st == 1 && t.soundOn) = true ∧
    after { State.reset with st := 9 } 0xF118 (fun t => t.st == 0 && !t.soundOn) = true := by decide

/-! ## Unknown words, the halted state, and the host's operations -/

/-- Section 2.1 of the vectors: an unknown word sets `UNK` and advances; F23: an odd `PC` is no fault. -/
theorem test_unknown_word : after State.reset 0x5121 (fun t => t.status == (false, 0, true) && t.pc == 0x202) = true := by
  decide
theorem test_odd_pc_f23 : after { State.reset with pc := 0x201 } 0x1205 (·.pc == 0x205) = true := by decide

/-- X1, X2, X3. -/
theorem test_halted_x1 :
    step { State.reset with halt := true, err := 1 } = .next { State.reset with halt := true, err := 1 } := rfl
theorem test_tick_while_halted_x2 :
    opTick { State.reset with halt := true, err := 2, dt := 5 } = { State.reset with halt := true, err := 2, dt := 4 } := by
  decide
theorem test_reset_x3 :
    (opReset Unspecified.zero).status = (false, 0, false) ∧ opReset Unspecified.zero = State.reset ∧
    Memory.readBytes State.reset.mem 0x046 10 = [0xF0, 0x80, 0xF0, 0x80, 0xF0, 0xF0, 0x80, 0xF0, 0x80, 0x80] := by decide

/-- T4 and T5. -/
theorem test_tick_t4_t5 :
    opTick { State.reset with dt := 255, st := 2 } = { State.reset with dt := 254, st := 1 } ∧
    opTick { State.reset with dt := 1, st := 1 } = State.reset := by decide

/-- L2 and L3: 3585 bytes are too many; no byte is an image. -/
theorem test_load_too_large_l2 :
    opLoad (List.replicate 3585 0xAB) State.reset = ({ State.reset with halt := true, err := 5 }, .tooLarge) := by
  have h : Config.loadBase + (List.replicate 3585 (0xAB : Byte)).length > 0x1000 := by
    rw [List.length_replicate]; decide
  simp only [opLoad, h, if_true]
  rfl
theorem test_load_empty_l3 : opLoad [] State.reset = (State.reset, .ok) := by decide

/-- An image of two instructions, loaded after `Reset`, runs its first, `load-imm 0, 7`, from 0x200 (R236, R120). -/
theorem test_boot_runs_the_first_instruction :
    (boot Unspecified.zero [0x60, 0x07, 0x12, 0x02]).any (fun s =>
      match cycle 0x0001 0xA7 s with
      | .next (t, o) => o == .ok && t.reg 0 == 7 && t.pc == 0x202 && t.keys == 1
      | _ => false) = true := by decide

/-- `Waiting` is told to the host, and nothing changes. -/
theorem test_outcome_waiting_k10 :
    (match execute 0 (State.reset.withFetchWord 16 0xF50A) with
     | .next (t, o) => o == .waiting && t == State.reset.withFetchWord 16 0xF50A
     | _ => false) = true := by decide

/-- No operation but `Reset` may be applied before the first `Reset` (R231). -/
theorem test_power_on : applyFromPowerOn .tick none = none ∧ (applyFromPowerOn (.reset Unspecified.zero) none).isSome := by
  exact ⟨rfl, rfl⟩

/-! ## Witnesses: the hypotheses of every obligation that has some can be met -/

theorem test_witness_EncodeOfDecodeIsTheWord : decode 0x8AB4 = some (.addReg 10 11) := by decide

theorem test_witness_OpcodeRowsNeverOverlap :
    ∃ r ∈ opcodeTable, rowMatches r 0x8AB4 = true := ⟨⟨"add-reg", 0x8004, 0xF00F⟩, by decide, by decide⟩

theorem test_witness_SourceCheckNeverTruncates : (SourceInstr.mk "draw-sprite" [15, 0, 15]).check = .ok (.drawSprite 15 0 15) :=
  rfl

/-- A state with the given word at the given `PC`, built without the host's helper. -/
def fetching (pc w : Word) : State := { State.reset with pc := pc }.store pc.toNat (wordBytes w)

/-- The last place an instruction can stand (X4). -/
theorem test_witness_StepRunsTheDecodedInstruction :
    let s := fetching 0xFFE 0x6001
    s.halt = false ∧ s.pc.toNat ≤ 0xFFE ∧
      decode (joinBytes (s.byteAt s.pc.toNat) (s.byteAt (s.pc.toNat + 1))) = some (.loadImm 0 1) := by decide

theorem test_witness_FetchIsBigEndianAndRangeChecked :
    (fetching 0xFFE 0x1234).pc.toNat ≤ 0xFFE ∧ fetch (fetching 0xFFE 0x1234) = some 0x1234 ∧
    0xFFE < ({ State.reset with pc := 0xFFF }).pc.toNat ∧ ({ State.reset with pc := 0xFFF }).halt = false := by decide

theorem test_witness_UnknownWordSetsUnkAndAdvances :
    let s := fetching 0xFFE 0x5121
    s.halt = false ∧ s.pc.toNat ≤ 0xFFE ∧
      decode (joinBytes (s.byteAt s.pc.toNat) (s.byteAt (s.pc.toNat + 1))) = none := by decide

theorem test_witness_HaltedCoreDoesNothing : (State.reset.halted .stackOverflow).halt = true := rfl

theorem test_witness_PlacedWordIsTheNextInstruction : Memory.wf (fetching 0xFFE 0x1234).mem = true := by decide

/-- A store of two registers over the two bytes at the next `PC`. -/
theorem test_witness_StoreIsSeenByTheNextFetch :
    let s := { withRegs [(0, 0x12), (1, 0x34)] with i := 0x202 }
    Memory.wf s.mem = true ∧ s.i.toNat + (1 : RegIdx).toNat ≤ 0xFFF ∧
      ∃ t, exec (.storeRegisters 1) s = .next t ∧ (1 : RegIdx).toNat = (0 : RegIdx).toNat + 1 ∧
        (1 : RegIdx).toNat ≤ (1 : RegIdx).toNat ∧ t.pc.toNat = s.i.toNat + (0 : RegIdx).toNat :=
  ⟨by decide, by decide, _, rfl, by decide, by decide, by decide⟩

/-- A full stack, a return address at the end of the range, `PC` at the highest value a run reaches. -/
def edge : State := { fetching 0xFFC 0x5000 with sp := 16, stack := Vector.replicate 16 0x1000, pc := 0x1002 }

theorem test_witness_StepKeepsTheInvariant :
    Inv edge ∧ (∃ t, step edge = .next t) ∧ Inv (fetching 0xFFE 0x6001) ∧ ∃ t, step (fetching 0xFFE 0x6001) = .next t :=
  ⟨by decide, ⟨_, rfl⟩, by decide, ⟨_, rfl⟩⟩

theorem test_witness_EveryScheduleKeepsTheInvariant : Inv edge := by decide

theorem test_witness_FatalErrorChangesOnlyHaltAndErr :
    State.reset.halt = false ∧ ∃ t, exec .ret State.reset = .next t ∧ t.halt = true := ⟨rfl, _, rfl, rfl⟩

/-- Each instruction that can raise `OutOfRangeAddress`, at the last address that does not and the first that does. -/
theorem test_witness_OutOfRangeIsRaisedExactlyWhereListed :
    State.reset.halt = false ∧
    raisesOutOfRange { State.reset with sp := 1, stack := State.reset.stack.set 0 0x1000 } .ret ∧
    raisesOutOfRange (withRegs [(0, 1)]) (.jumpOffset 0xFFF) ∧
    raisesOutOfRange { State.reset with i := 0xFFF } (.drawSprite 0 0 2) ∧
    ¬raisesOutOfRange { State.reset with i := 0xFFF } (.drawSprite 0 0 1) ∧
    ¬raisesOutOfRange { State.reset with i := 0xFFFF } (.drawSprite 0 0 0) ∧
    raisesOutOfRange { State.reset with i := 0xFFE } (.storeBcd 0) ∧
    ¬raisesOutOfRange { State.reset with i := 0xFFD } (.storeBcd 0) ∧
    raisesOutOfRange { State.reset with i := 0x1000 } (.storeRegisters 0) ∧
    raisesOutOfRange { State.reset with i := 0xFFF } (.loadRegisters 1) :=
  ⟨rfl, ⟨0x1000, by decide, rfl, by decide⟩, by simp only [raisesOutOfRange]; decide, by simp only [raisesOutOfRange]; decide,
    by simp only [raisesOutOfRange]; decide, by simp only [raisesOutOfRange]; decide, by simp only [raisesOutOfRange]; decide,
    by simp only [raisesOutOfRange]; decide, by simp only [raisesOutOfRange]; decide, by simp only [raisesOutOfRange]; decide⟩

theorem test_witness_SeventeenthNestedCallOverflows :
    ({ State.reset with sp := 16 } : State).sp.val = 16 ∧ (List.replicate 16 (0x200 : Addr)).length = 16 ∧
    State.reset.sp.val = 0 := ⟨rfl, rfl, rfl⟩

theorem test_witness_ReturnOnEmptyStackUnderflows :
    State.reset.halt = false ∧ State.reset.sp.val = 0 ∧ edge.halt = false ∧ edge.sp.val ≠ 0 := by decide

theorem test_witness_JumpsSetPcToTheirTarget :
    (0xFFE : Addr).toNat + ((withRegs [(0, 1)]).reg 0).toNat = 0xFFF ∧
    (0xFFF : Addr).toNat + ((withRegs [(0, 1)]).reg 0).toNat = 0x1000 := by decide

theorem test_witness_CallPushesTheReturnAddress : ({ State.reset with sp := 15 } : State).sp.val < 16 := by decide

theorem test_witness_ReturnPopsIntoPc :
    let s := { State.reset with sp := 16, stack := (State.reset.stack.set 15 0x1000).set 14 0xFFF }
    (0 < s.sp.val ∧ s.stack[s.sp.val - 1]? = some 0x1000 ∧ 0xFFF < (0x1000 : Word).toNat) ∧
    (0 < ({ s with sp := 15 } : State).sp.val ∧ s.stack[({ s with sp := 15 } : State).sp.val - 1]? = some 0xFFF ∧
      (0xFFF : Word).toNat ≤ 0xFFF) := ⟨⟨by decide, rfl, by decide⟩, by decide, rfl, by decide⟩

/-- A `call` at 0xFFD, whose `return` comes back, and at 0xFFE, whose `return` is out of range (F6). -/
theorem test_witness_ReturnComesBackAfterTheCall :
    (∃ t, ({ State.reset with pc := 0xFFD } : State).sp.val < 16 ∧
      exec (.call 0x300) { State.reset with pc := 0xFFD } = .next t) ∧
    ∃ t, ({ State.reset with pc := 0xFFE } : State).pc.toNat = 0xFFE ∧
      exec (.call 0x300) { State.reset with pc := 0xFFE } = .next t :=
  ⟨⟨_, by decide, rfl⟩, _, by decide, rfl⟩

theorem test_witness_RandomMasksTheDrawnByte : (0x0F : Byte).getLsbD 4 = false ∧ (0x0F : Byte).getLsbD 9 = false := by decide

theorem test_witness_StoreBcdWritesThreeDigits :
    Memory.wf ({ State.reset with i := 0xFFD } : State).mem = true ∧
    ({ State.reset with i := 0xFFD } : State).i.toNat + 2 = 0xFFF ∧
    ({ State.reset with i := 0xFFE } : State).i.toNat + 2 = 0x1000 := by decide

theorem test_witness_StoreRegistersWritesTheRange :
    Memory.wf ({ State.reset with i := 0xFF0 } : State).mem = true ∧
    ({ State.reset with i := 0xFF0 } : State).i.toNat + (15 : RegIdx).toNat = 0xFFF ∧
    ({ State.reset with i := 0xFF1 } : State).i.toNat + (15 : RegIdx).toNat = 0x1000 := by decide

theorem test_witness_LoadRegistersReadsTheRange :
    ({ State.reset with i := 0xFFF } : State).i.toNat + (0 : RegIdx).toNat = 0xFFF ∧
    ({ State.reset with i := 0xFFF } : State).i.toNat + (1 : RegIdx).toNat = 0x1000 := by decide

theorem test_witness_LoadRegistersRestoresWhatWasStored :
    let s := { withRegs [(0, 0x77)] with i := 0xFFF }
    Memory.wf s.mem = true ∧ s.i.toNat + (0 : RegIdx).toNat ≤ 0xFFF ∧
      ∃ t, exec (.storeRegisters 0) s = .next t ∧ (t.setReg 0 0).mem = t.mem ∧ (t.setReg 0 0).i = s.i :=
  ⟨by decide, by decide, _, rfl, rfl, rfl⟩

theorem test_witness_DrawSpriteInvertsTheCoveredPixels :
    spriteInRange 1 { State.reset with i := 0xFFF } ∧ spriteInRange 0 { State.reset with i := 0xFFFF } ∧
    spriteCovers 0 1 5 State.reset 3 4 ∧ ¬spriteInRange 2 { State.reset with i := 0xFFF } :=
  ⟨.inr (by decide), .inl (by decide), ⟨4, 3, by decide, by decide, by decide, by decide, by decide⟩,
    fun h => h.elim (fun h => absurd h (by decide)) (fun h => absurd h (by decide))⟩

/-- Digit 0 at the corner (G14). -/
theorem test_witness_DrawingTwiceRestoresTheScreen :
    (0 : RegIdx) ≠ 15 ∧ spriteInRange 5 State.reset ∧ ∃ t, exec (.drawSprite 0 0 5) State.reset = .next t :=
  ⟨by decide, .inr (by decide), _, rfl⟩

theorem test_witness_WaitKeyHoldsThenReportsTheLowestKey :
    State.reset.keys = 0 ∧ ({ State.reset with keys := 0x8000 } : State).keys ≠ 0 := by decide

/-- A flag setter that completes, and a `load-registers 15` that changes VF. -/
theorem test_witness_OnlyTheNamedInstructionsWriteVf :
    State.reset.halt = false ∧ (∃ t, exec (.subReg 1 2) State.reset = .next t ∧ t.reg 15 ≠ State.reset.reg 15 ∧ t.halt = false) ∧
    ∃ t, exec (.loadRegisters 15) State.reset = .next t ∧ t.reg 15 ≠ State.reset.reg 15 :=
  ⟨rfl, ⟨_, rfl, by decide, rfl⟩, _, rfl, by decide⟩

theorem test_witness_InstructionsWriteOnlyTheirRowsElements :
    ∃ t, exec (.call 0x300) State.reset = .next t ∧ t.sp ≠ State.reset.sp := ⟨_, rfl, by decide⟩

theorem test_witness_PcMovesByTheInstructionsKind :
    State.reset.halt = false ∧ ∃ t, exec (.jumpOffset 0xFFF) State.reset = .next t ∧ t.halt = false := ⟨rfl, _, rfl, rfl⟩

theorem test_witness_ScreenFlowsOnlyIntoTheCollisionBit : ∃ t, exec (.drawSprite 0 0 5) State.reset = .next t := ⟨_, rfl⟩

/-- One instruction for each clause: `set-sound-timer` and another. -/
theorem test_witness_SoundTimerAndUnkAreNeverRead :
    (∃ t, exec (.setSoundTimer 0) State.reset = .next t) ∧ (∃ t, exec .clearScreen State.reset = .next t) ∧
    ∀ x, Instr.clearScreen ≠ .setSoundTimer x := ⟨⟨_, rfl⟩, ⟨_, rfl⟩, fun _ h => nomatch h⟩

/-- The last byte there is room for at the top of memory. -/
theorem test_witness_ResetLeavesTheStatedValues :
    (0xFAF : Nat) < (List.replicate 0xFB0 (0x11 : Byte)).length ∧ 0x050 + 0xFAF = 0xFFF := by
  rw [List.length_replicate]; decide

theorem test_witness_LoadPlacesTheImageOrHalts :
    Memory.wf State.reset.mem = true ∧ (List.replicate 3584 (0xAB : Byte)).length ≤ 3584 ∧
    3584 < (List.replicate 3585 (0xAB : Byte)).length := by
  rw [List.length_replicate, List.length_replicate]; decide

theorem test_witness_BootStartsTheImageAtItsFirstByte : ∃ s, boot Unspecified.zero [0x12, 0x00] = some s := ⟨_, rfl⟩

theorem test_witness_CycleEndsTheKeyWait :
    let s := fetching 0xFFE 0xF50A
    s.halt = false ∧ s.pc.toNat ≤ 0xFFE ∧
      decode (joinBytes (s.byteAt s.pc.toNat) (s.byteAt (s.pc.toNat + 1))) = some (.waitKey 5) ∧ (0x8000 : Word) ≠ 0 := by
  decide

/-- Each operation but `Reset`, from a halted core with `UNK` set. -/
theorem test_witness_OnlyResetClearsHaltAndUnk :
    let s := { State.reset with halt := true, err := 1, unk := true, st := 1 }
    s.halt = true ∧ s.unk = true ∧ (∃ t a, apply (.refreshInput 1) s = .next (t, a)) ∧
    (∃ t a, apply .tick s = .next (t, a)) ∧ (∃ t a, apply (.load [1]) s = .next (t, a)) ∧
    ∃ t a, apply (.execute 0) s = .next (t, a) :=
  ⟨rfl, rfl, ⟨_, _, rfl⟩, ⟨_, _, rfl⟩, ⟨_, _, rfl⟩, _, _, rfl⟩

end Sys2Proof.Tests
end

section
/-! PROOFS. Control flow (spec/40_control_flow.md). The model's register skips compare two bytes with `==` or `!=`; the
statements speak of the bytes' values as numbers. -/
namespace Sys2Proof.ControlFlow
open Sys2Proof.Machine

/-- A skip taken when two bytes are equal, said of their values. -/
theorem pc_add_eq_setPc_beq (s : State) (a b : Byte) :
    { s with pc := s.pc + if a.toNat = b.toNat then 4 else 2 } = s.setPc (s.pc + if a == b then 4 else 2) := by
  by_cases h : a = b
  · simp [State.setPc, h]
  · simp [State.setPc, h, BitVec.toNat_inj]

/-- A skip taken when two bytes differ, said of their values. -/
theorem pc_add_eq_setPc_bne (s : State) (a b : Byte) :
    { s with pc := s.pc + if a.toNat = b.toNat then 2 else 4 } = s.setPc (s.pc + if a != b then 4 else 2) := by
  by_cases h : a = b
  · simp [State.setPc, h]
  · simp [State.setPc, h, BitVec.toNat_inj]

/-- Settles O23: what each skip does is the model's law for it, and bytes are equal exactly when their values are. -/
theorem registerSkipsAddFourOrTwo : Obligations.RegisterSkipsAddFourOrTwo := fun s x y nn =>
  ⟨exec_skipEqImm_iff.2 (pc_add_eq_setPc_beq s (s.reg x) nn),
    exec_skipNeImm_iff.2 (pc_add_eq_setPc_bne s (s.reg x) nn),
    exec_skipEqReg_iff.2 (pc_add_eq_setPc_beq s (s.reg x) (s.reg y)),
    exec_skipNeReg_iff.2 (pc_add_eq_setPc_bne s (s.reg x) (s.reg y))⟩

end Sys2Proof.ControlFlow
end

section
/-! PROOFS. Register load and arithmetic (spec/41_alu.md). An instruction that ends by writing one register and advancing
`PC` leaves the state `(s.setReg x u).setPc a`; its effect and its frame are said once here. -/
namespace Sys2Proof.Alu
open Sys2Proof.Machine Sys2Proof.Claims

/-- Writing `V[x]` and then `PC` changes no other register. -/
theorem onlyReg_setReg_setPc (s : State) (x : RegIdx) (u : Byte) (a : Word) :
    OnlyReg x u s ((s.setReg x u).setPc a) := fun r => s.reg_setReg x r u

/-- Writing `V[x]` and then `PC` changes nothing but the registers and `PC`. -/
theorem onlyVAndPc_setReg_setPc (s : State) (x : RegIdx) (u : Byte) (a : Word) :
    OnlyVAndPc s ((s.setReg x u).setPc a) := ⟨rfl, fun _ => rfl⟩

/-- The value of the sum byte is the sum of the values modulo 256. -/
theorem toNat_sumByte (a b : Byte) : (sumByte a b).toNat = (a.toNat + b.toNat) % 256 := by
  rw [sumByte_eq, BitVec.toNat_add]

/-- Settles O29: both instructions write one register and advance, and `add-imm` writes the sum byte. -/
theorem loadAndAddImmediateWriteOnlyVx : Obligations.LoadAndAddImmediateWriteOnlyVx := by
  intro s x nn
  constructor
  · exact ⟨_, exec_loadImm_iff.2 rfl, onlyReg_setReg_setPc s x nn _, rfl, onlyVAndPc_setReg_setPc ..⟩
  · refine ⟨_, exec_addImm_iff.2 rfl, ?value, ?others, rfl, onlyVAndPc_setReg_setPc ..⟩
    case value => rw [State.reg_setPc, State.reg_setReg_same, toNat_sumByte]
    case others => exact fun r hr => (onlyReg_setReg_setPc s x _ _ r).trans (if_neg hr)

end Sys2Proof.Alu
end

section
/-! PROOFS. The index register (spec/42_index_memory.md). An instruction that ends by writing `I` and advancing `PC` leaves
the state `{ s with i := w }.setPc a`; its frame is said once here. -/
namespace Sys2Proof.IndexMemory
open Sys2Proof.Machine Sys2Proof.Claims

/-- Writing `I` and then `PC` changes nothing but the two, and no byte of memory. -/
theorem onlyIAndPc_setI_setPc (s : State) (w a : Word) : OnlyIAndPc s ({ s with i := w }.setPc a) := ⟨rfl, fun _ => rfl⟩

/-- The low nibble of a byte is its value modulo 16. -/
theorem toNat_lowNibble (u : Byte) : (lowNibble u).toNat = u.toNat % 16 := by
  simp [lowNibble]

/-- The font address is five times the low nibble (R142): at most 75, it fits the 16 bits of `I`. -/
theorem toNat_fontAddr (u : Byte) : (fontAddr u).toNat = 5 * (u.toNat % 16) := by
  have fits : 5 * (u.toNat % 16) < 2 ^ 16 := by omega
  rw [fontAddr, toNat_lowNibble, Nat.zero_add, BitVec.toNat_ofNat, Nat.mod_eq_of_lt fits]

/-- Settles O34: both instructions write `I` and advance; the value written is the address itself, or the font address. -/
theorem setIndexAndFontAddressWriteI : Obligations.SetIndexAndFontAddressWriteI := by
  intro s x nnn
  constructor
  · exact ⟨_, exec_setIndex_iff.2 rfl, toNat_zextAddr nnn, rfl, onlyIAndPc_setI_setPc ..⟩
  · exact ⟨_, exec_fontCharAddress_iff.2 rfl, toNat_fontAddr (s.reg x), rfl, onlyIAndPc_setI_setPc ..⟩

end Sys2Proof.IndexMemory
end

section
/-! PROOFS. The display (spec/43_display.md). An instruction that ends by writing the framebuffer and advancing `PC` leaves
the state `{ s with fb := fb }.setPc a`. -/
namespace Sys2Proof.Display
open Sys2Proof.Machine Sys2Proof.Claims

/-- With a blank framebuffer every cell of the read port is off. -/
theorem fbRead_blank (s : State) (a : Word) (k : Nat) :
    ({ s with fb := Vector.replicate 32 0 }.setPc a).fbRead k = false :=
  Framebuffer.pixel_replicate_zero (k % 64) (k / 64)

/-- Settles O40: the state left is `s` with a blank framebuffer and `PC` advanced. -/
theorem clearScreenTurnsEveryPixelOff : Obligations.ClearScreenTurnsEveryPixelOff := fun s =>
  ⟨_, exec_clearScreen_iff.2 rfl, fun k _ => fbRead_blank s (s.pc + 2) k, rfl, rfl, fun _ => rfl⟩

end Sys2Proof.Display
end

section
/-! PROOFS. Keypad and timers (spec/44_input_timers.md). The model tests the key of a register through `keyDown`; the
statements name the bit of `KEYS` by the register's value modulo 16. -/
namespace Sys2Proof.InputTimers
open Sys2Proof.Machine Sys2Proof.Claims

/-- The key a register names is its value modulo 16 (R174): the high nibble plays no part. -/
theorem keyDown_eq_getLsbD (s : State) (x : RegIdx) : keyDown s x = s.keys.getLsbD ((s.reg x).toNat % 16) := by
  rw [keyDown, IndexMemory.toNat_lowNibble]

/-- Settles O24: what each key skip does is the model's law for it; the two cases of the negated skip are exchanged. -/
theorem keySkipsTestTheLowNibblesKey : Obligations.KeySkipsTestTheLowNibblesKey := by
  intro s x
  rw [← keyDown_eq_getLsbD]
  constructor
  · exact exec_skipKeyPressed_iff.2 rfl
  · rw [exec_skipKeyNotPressed_iff]
    cases keyDown s x <;> rfl

/-- The sound is on exactly when `ST` is not zero (R34, R176). -/
theorem soundOn_iff (s : State) : s.soundOn = true ↔ s.st ≠ 0 := bne_iff_ne

/-- Settles O44: each instruction writes its one destination and advances; `sound_on` is read off the `ST` written. -/
theorem timerInstructionsMoveTheTimers : Obligations.TimerInstructionsMoveTheTimers := by
  intro s x
  refine ⟨?getDelay, ?setDelay, ?setSound⟩
  case getDelay =>
    exact ⟨_, exec_getDelayTimer_iff.2 rfl, Alu.onlyReg_setReg_setPc s x s.dt _, rfl, Alu.onlyVAndPc_setReg_setPc ..⟩
  case setDelay => exact ⟨_, exec_setDelayTimer_iff.2 rfl, rfl, rfl, rfl, fun _ => rfl⟩
  case setSound => exact ⟨_, exec_setSoundTimer_iff.2 rfl, rfl, soundOn_iff _, rfl, rfl, fun _ => rfl⟩

end Sys2Proof.InputTimers
end

section
/-! PROOFS. The operation `Tick` (spec/60_exceptions.md). It writes each timer's countdown into that timer, so what it does to
a timer's value is the law of the countdown. -/
namespace Sys2Proof.Exceptions
open Sys2Proof.Machine

@[simp] theorem dt_opTick (s : State) : (opTick s).dt = countDown s.dt := rfl

@[simp] theorem st_opTick (s : State) : (opTick s).st = countDown s.st := rfl

/-- `Tick` changes nothing but the timers (R210). -/
theorem opTick_frame (s : State) : opTick s = { s with dt := (opTick s).dt, st := (opTick s).st } := rfl

/-- Settles O53: each timer holds its own countdown, which is one less or zero. -/
theorem tickCountsBothTimersDown : Obligations.TickCountsBothTimersDown := by
  intro s
  refine ⟨?delay, ?sound, opTick_frame s⟩
  case delay => rw [dt_opTick, toNat_countDown]
  case sound => rw [st_opTick, toNat_countDown]

end Sys2Proof.Exceptions
end

section
/-! PROOFS. Encoding (spec/30_encoding.md). A word is known by its fields, and each format of the encoder puts its operands in
fields of their own, so the decoder and the encoder are inverse to each other format by format. -/
namespace Sys2Proof.Decoding

/-! ## The fields of a word of each format -/

theorem opField_encodeNnn (value : Word) (a : Addr) : opField (encodeNnn value a) = opField value := by
  simp [encodeNnn]

theorem nnnField_encodeNnn (value : Word) (a : Addr) : nnnField (encodeNnn value a) = nnnField value ||| a := by
  simp [encodeNnn]

theorem opField_encodeXnn (value : Word) (x : RegIdx) (nn : Byte) : opField (encodeXnn value x nn) = opField value := by
  simp [encodeXnn]

theorem xField_encodeXnn (value : Word) (x : RegIdx) (nn : Byte) :
    xField (encodeXnn value x nn) = xField value ||| x := by
  simp [encodeXnn]

theorem nnField_encodeXnn (value : Word) (x : RegIdx) (nn : Byte) :
    nnField (encodeXnn value x nn) = nnField value ||| nn := by
  simp [encodeXnn]

theorem opField_encodeXy (value : Word) (x y : RegIdx) : opField (encodeXy value x y) = opField value := by
  simp [encodeXy]

theorem xField_encodeXy (value : Word) (x y : RegIdx) : xField (encodeXy value x y) = xField value ||| x := by
  simp [encodeXy]

theorem yField_encodeXy (value : Word) (x y : RegIdx) : yField (encodeXy value x y) = yField value ||| y := by
  simp [encodeXy]

theorem nField_encodeXy (value : Word) (x y : RegIdx) : nField (encodeXy value x y) = nField value := by
  simp [encodeXy]

/-- Format XYN is format XY with `n` in the place that XY leaves to the row. -/
theorem encodeXyn_eq (value : Word) (x y : RegIdx) (n : Nibble) :
    encodeXyn value x y n = encodeXy value x y ||| placeLow 4 n := rfl

theorem opField_encodeX (value : Word) (x : RegIdx) : opField (encodeX value x) = opField value := by
  simp [encodeX]

theorem xField_encodeX (value : Word) (x : RegIdx) : xField (encodeX value x) = xField value ||| x := by
  simp [encodeX]

theorem nnField_encodeX (value : Word) (x : RegIdx) : nnField (encodeX value x) = nnField value := by
  simp [encodeX]

/-- Settles O1: format by format, the fields that the decoder reads are the row's fixed bits and the operands. -/
theorem decodeOfEncodeIsTheInstruction : Obligations.DecodeOfEncodeIsTheInstruction := by
  intro i
  cases i
  case clearScreen | ret => rfl
  case jump | call | setIndex | jumpOffset =>
    simp only [encode, decode, opField_encodeNnn, nnnField_encodeNnn]
    simp [opField, nnnField]
  case skipEqImm | skipNeImm | loadImm | addImm | random =>
    simp only [encode, decode, opField_encodeXnn, xField_encodeXnn, nnField_encodeXnn]
    simp [opField, xField, nnField]
  case skipEqReg | skipNeReg =>
    simp only [encode, decode, opField_encodeXy, xField_encodeXy, yField_encodeXy, nField_encodeXy]
    simp [opField, xField, yField, nField]
  case assignReg | orReg | andReg | xorReg | addReg | subReg | shrReg | subnReg | shlReg =>
    simp only [encode, decode, decodeFamily8, opField_encodeXy, xField_encodeXy, yField_encodeXy, nField_encodeXy]
    simp [opField, xField, yField, nField]
  case drawSprite =>
    simp only [encode, decode, encodeXyn_eq, opField_or, xField_or, yField_or, nField_or, opField_encodeXy,
      xField_encodeXy, yField_encodeXy, nField_encodeXy, opField_placeLow_nibble, xField_placeLow_nibble,
      yField_placeLow_nibble, nField_placeLow_nibble]
    simp [opField, xField, yField, nField]
  case skipKeyPressed | skipKeyNotPressed =>
    simp only [encode, decode, decodeFamilyE, opField_encodeX, xField_encodeX, nnField_encodeX]
    simp [opField, xField, nnField]
  case getDelayTimer | waitKey | setDelayTimer | setSoundTimer | addToIndex | fontCharAddress | storeBcd |
      storeRegisters | loadRegisters =>
    simp only [encode, decode, decodeFamilyF, opField_encodeX, xField_encodeX, nnField_encodeX]
    simp [opField, xField, nnField]

/-! ## A word from its fields -/

theorem opField_append_nnnField (w : Word) : opField w ++ nnnField w = w := by
  rw [opField, nnnField, BitVec.extractLsb'_append_extractLsb'_eq_extractLsb' (by rfl), BitVec.extractLsb'_eq_self]

theorem xField_append_nnField (w : Word) : xField w ++ nnField w = nnnField w :=
  BitVec.extractLsb'_append_extractLsb'_eq_extractLsb' rfl

theorem yField_append_nField (w : Word) : yField w ++ nField w = nnField w :=
  BitVec.extractLsb'_append_extractLsb'_eq_extractLsb' rfl

/-- Two words with the same leading nibble and low 12 bits are the same word (R71). -/
theorem word_ext_nnn {w w' : Word} (op : opField w = opField w') (nnn : nnnField w = nnnField w') : w = w' := by
  rw [← opField_append_nnnField w, ← opField_append_nnnField w', op, nnn]

/-- Two words with the same leading nibble, `x` and trailing byte are the same word (R71). -/
theorem word_ext_xnn {w w' : Word} (op : opField w = opField w') (x : xField w = xField w')
    (nn : nnField w = nnField w') : w = w' :=
  word_ext_nnn op (by rw [← xField_append_nnField, ← xField_append_nnField, x, nn])

/-- Two words with the same four nibbles are the same word (R71). -/
theorem word_ext_xyn {w w' : Word} (op : opField w = opField w') (x : xField w = xField w')
    (y : yField w = yField w') (n : nField w = nField w') : w = w' :=
  word_ext_xnn op x (by rw [← yField_append_nField, ← yField_append_nField, y, n])

/-! ## Encoding a word's own fields -/

theorem encodeNnn_fields {value w : Word} (op : opField w = opField value) (hv : nnnField value = 0) :
    encodeNnn value (nnnField w) = w :=
  word_ext_nnn (by rw [opField_encodeNnn, op]) (by simp [nnnField_encodeNnn, hv])

theorem encodeXnn_fields {value w : Word} (op : opField w = opField value) (hx : xField value = 0)
    (hn : nnField value = 0) : encodeXnn value (xField w) (nnField w) = w :=
  word_ext_xnn (by rw [opField_encodeXnn, op]) (by simp [xField_encodeXnn, hx]) (by simp [nnField_encodeXnn, hn])

theorem encodeXy_fields {value w : Word} (op : opField w = opField value) (n : nField w = nField value)
    (hx : xField value = 0) (hy : yField value = 0) : encodeXy value (xField w) (yField w) = w :=
  word_ext_xyn (by rw [opField_encodeXy, op]) (by simp [xField_encodeXy, hx]) (by simp [yField_encodeXy, hy])
    (by rw [nField_encodeXy, n])

theorem encodeXyn_fields {value w : Word} (op : opField w = opField value) (hx : xField value = 0)
    (hy : yField value = 0) (hn : nField value = 0) : encodeXyn value (xField w) (yField w) (nField w) = w :=
  word_ext_xyn (by simp [encodeXyn, op]) (by simp [encodeXyn, hx]) (by simp [encodeXyn, hy]) (by simp [encodeXyn, hn])

theorem encodeX_fields {value w : Word} (op : opField w = opField value) (nn : nnField w = nnField value)
    (hx : xField value = 0) : encodeX value (xField w) = w :=
  word_ext_xnn (by rw [opField_encodeX, op]) (by simp [xField_encodeX, hx]) (by rw [nnField_encodeX, nn])

/-! ## The families, from the decoder back to the word -/

theorem encode_of_decodeFamily0 {w : Word} {i : Instr} (h : decodeFamily0 w = some i) : encode i = w := by
  unfold decodeFamily0 at h
  split at h
  · cases h; exact Eq.symm ‹_›
  · split at h
    · cases h; exact Eq.symm ‹_›
    · cases h

theorem encode_of_decodeFamily8 {w : Word} {i : Instr} (op : opField w = 0x8) (h : decodeFamily8 w = some i) :
    encode i = w := by
  unfold decodeFamily8 at h
  split at h <;> cases h <;> exact encodeXy_fields op ‹_› rfl rfl

theorem encode_of_decodeFamilyE {w : Word} {i : Instr} (op : opField w = 0xE) (h : decodeFamilyE w = some i) :
    encode i = w := by
  unfold decodeFamilyE at h
  split at h <;> cases h <;> exact encodeX_fields op ‹_› rfl

theorem encode_of_decodeFamilyF {w : Word} {i : Instr} (op : opField w = 0xF) (h : decodeFamilyF w = some i) :
    encode i = w := by
  unfold decodeFamilyF at h
  split at h <;> cases h <;> exact encodeX_fields op ‹_› rfl

/-- The sixteen values of a nibble. -/
theorem nibble_cases : ∀ k : Nibble,
    k = 0x0 ∨ k = 0x1 ∨ k = 0x2 ∨ k = 0x3 ∨ k = 0x4 ∨ k = 0x5 ∨ k = 0x6 ∨ k = 0x7 ∨ k = 0x8 ∨ k = 0x9 ∨ k = 0xA ∨
      k = 0xB ∨ k = 0xC ∨ k = 0xD ∨ k = 0xE ∨ k = 0xF := by decide

/-- Settles O2: a word of each family decodes to an instruction whose format puts the word's own fields back in place. -/
theorem encodeOfDecodeIsTheWord : Obligations.EncodeOfDecodeIsTheWord := by
  intro w i h
  unfold decode at h
  split at h
  case h_1 => exact encode_of_decodeFamily0 h
  case h_9 op => exact encode_of_decodeFamily8 op h
  case h_15 op => exact encode_of_decodeFamilyE op h
  case h_16 =>
    have op : opField w = 0xF := by
      have := nibble_cases (opField w)
      tauto
    exact encode_of_decodeFamilyF op h
  case h_2 op | h_3 op | h_11 op | h_12 op => cases h; exact encodeNnn_fields op rfl
  case h_4 op | h_5 op | h_7 op | h_8 op | h_13 op => cases h; exact encodeXnn_fields op rfl rfl
  case h_14 op => cases h; exact encodeXyn_fields op rfl rfl rfl
  case h_6 op | h_10 op =>
    split at h
    · cases h; exact encodeXy_fields op ‹_› rfl rfl
    · cases h

/-! ## The opcode table -/

/-- The field of a masked word is the masked field. -/
theorem opField_and (a b : Word) : opField (a &&& b) = opField a &&& opField b := BitVec.extractLsb'_and

theorem nField_and (a b : Word) : nField (a &&& b) = nField a &&& nField b := BitVec.extractLsb'_and

theorem nnField_and (a b : Word) : nnField (a &&& b) = nnField a &&& nnField b := BitVec.extractLsb'_and

/-- A mask whose leading nibble is all ones fixes the leading nibble of a word. -/
theorem opField_of_rowMatches {r : OpcodeRow} {w : Word} (hm : opField r.mask = 0xF) (h : rowMatches r w = true) :
    opField w = opField r.value := by
  rw [← beq_iff_eq.1 h, opField_and, hm]
  exact BitVec.and_allOnes.symm

theorem nField_of_rowMatches {r : OpcodeRow} {w : Word} (hm : nField r.mask = 0xF) (h : rowMatches r w = true) :
    nField w = nField r.value := by
  rw [← beq_iff_eq.1 h, nField_and, hm]
  exact BitVec.and_allOnes.symm

theorem nnField_of_rowMatches {r : OpcodeRow} {w : Word} (hm : nnField r.mask = 0xFF) (h : rowMatches r w = true) :
    nnField w = nnField r.value := by
  rw [← beq_iff_eq.1 h, nnField_and, hm]
  exact BitVec.and_allOnes.symm

/-- A mask of all ones fixes the whole word. -/
theorem eq_of_rowMatches {r : OpcodeRow} {w : Word} (hm : r.mask = 0xFFFF) (h : rowMatches r w = true) : w = r.value := by
  rw [← beq_iff_eq.1 h, hm]
  exact BitVec.and_allOnes.symm

/-- Every word that the row matches decodes to an instruction with the row's name. -/
def DecodesByName (r : OpcodeRow) : Prop := ∀ w, rowMatches r w = true → ∃ i, decode w = some i ∧ i.name = r.name

/-! Of each block of rows: the mask fixes the fields that the decoder tests, and they select the row's instruction. -/

theorem opcodeRowsA_decode : ∀ r ∈ opcodeRowsA, DecodesByName r := by
  simp only [opcodeRowsA, List.forall_mem_cons]
  refine ⟨?fixed₀, ?fixed₁, ?_, ?_, ?_, ?_, ?xy, ?_, ?_, List.forall_mem_nil _⟩ <;> intro w h
  case fixed₀ | fixed₁ =>
    obtain rfl := eq_of_rowMatches rfl h
    exact ⟨_, rfl, rfl⟩
  case xy =>
    simp only [decode, opField_of_rowMatches rfl h, nField_of_rowMatches rfl h]
    exact ⟨_, rfl, rfl⟩
  all_goals
    simp only [decode, opField_of_rowMatches rfl h]
    exact ⟨_, rfl, rfl⟩

theorem opcodeRowsB_decode : ∀ r ∈ opcodeRowsB, DecodesByName r := by
  simp only [opcodeRowsB, List.forall_mem_cons]
  refine ⟨?_, ?_, ?_, ?_, ?_, ?_, ?_, ?_, ?_, List.forall_mem_nil _⟩ <;>
    (intro w h
     simp only [decode, decodeFamily8, opField_of_rowMatches rfl h, nField_of_rowMatches rfl h]
     exact ⟨_, rfl, rfl⟩)

theorem opcodeRowsC_decode : ∀ r ∈ opcodeRowsC, DecodesByName r := by
  simp only [opcodeRowsC, List.forall_mem_cons]
  refine ⟨?xy, ?_, ?_, ?_, ?_, ?x₀, ?x₁, List.forall_mem_nil _⟩ <;> intro w h
  case xy =>
    simp only [decode, opField_of_rowMatches rfl h, nField_of_rowMatches rfl h]
    exact ⟨_, rfl, rfl⟩
  case x₀ | x₁ =>
    simp only [decode, decodeFamilyE, opField_of_rowMatches rfl h, nnField_of_rowMatches rfl h]
    exact ⟨_, rfl, rfl⟩
  all_goals
    simp only [decode, opField_of_rowMatches rfl h]
    exact ⟨_, rfl, rfl⟩

theorem opcodeRowsD_decode : ∀ r ∈ opcodeRowsD, DecodesByName r := by
  simp only [opcodeRowsD, List.forall_mem_cons]
  refine ⟨?_, ?_, ?_, ?_, ?_, ?_, ?_, ?_, ?_, List.forall_mem_nil _⟩ <;>
    (intro w h
     simp only [decode, decodeFamilyF, opField_of_rowMatches rfl h, nnField_of_rowMatches rfl h]
     exact ⟨_, rfl, rfl⟩)

/-- Every row of the opcode table decodes by name. -/
theorem row_decode {r : OpcodeRow} (hr : r ∈ opcodeTable) : DecodesByName r := by
  simp only [opcodeTable, List.mem_append] at hr
  obtain ((ha | hb) | hc) | hd := hr
  · exact opcodeRowsA_decode r ha
  · exact opcodeRowsB_decode r hb
  · exact opcodeRowsC_decode r hc
  · exact opcodeRowsD_decode r hd

/-- Every instruction's word matches the row with its name (the model's family `Encoding`, gathered). -/
theorem encoding_statement (i : Instr) : Laws.Encoding.Statement i := by
  cases i
  case clearScreen => exact Laws.Encoding.clearScreen
  case ret => exact Laws.Encoding.ret
  case jump => exact Laws.Encoding.jump _
  case call => exact Laws.Encoding.call _
  case skipEqImm => exact Laws.Encoding.skipEqImm _ _
  case skipNeImm => exact Laws.Encoding.skipNeImm _ _
  case skipEqReg => exact Laws.Encoding.skipEqReg _ _
  case loadImm => exact Laws.Encoding.loadImm _ _
  case addImm => exact Laws.Encoding.addImm _ _
  case assignReg => exact Laws.Encoding.assignReg _ _
  case orReg => exact Laws.Encoding.orReg _ _
  case andReg => exact Laws.Encoding.andReg _ _
  case xorReg => exact Laws.Encoding.xorReg _ _
  case addReg => exact Laws.Encoding.addReg _ _
  case subReg => exact Laws.Encoding.subReg _ _
  case shrReg => exact Laws.Encoding.shrReg _ _
  case subnReg => exact Laws.Encoding.subnReg _ _
  case shlReg => exact Laws.Encoding.shlReg _ _
  case skipNeReg => exact Laws.Encoding.skipNeReg _ _
  case setIndex => exact Laws.Encoding.setIndex _
  case jumpOffset => exact Laws.Encoding.jumpOffset _
  case random => exact Laws.Encoding.random _ _
  case drawSprite => exact Laws.Encoding.drawSprite _ _ _
  case skipKeyPressed => exact Laws.Encoding.skipKeyPressed _
  case skipKeyNotPressed => exact Laws.Encoding.skipKeyNotPressed _
  case getDelayTimer => exact Laws.Encoding.getDelayTimer _
  case waitKey => exact Laws.Encoding.waitKey _
  case setDelayTimer => exact Laws.Encoding.setDelayTimer _
  case setSoundTimer => exact Laws.Encoding.setSoundTimer _
  case addToIndex => exact Laws.Encoding.addToIndex _
  case fontCharAddress => exact Laws.Encoding.fontCharAddress _
  case storeBcd => exact Laws.Encoding.storeBcd _
  case storeRegisters => exact Laws.Encoding.storeRegisters _
  case loadRegisters => exact Laws.Encoding.loadRegisters _

/-- Settles O3: a decoded word is the word of its instruction, which the row of that name matches; and every row decodes by
name. -/
theorem decodeAgreesWithTheOpcodeTable : Obligations.DecodeAgreesWithTheOpcodeTable := by
  intro w name
  constructor
  · rintro ⟨i, hd, rfl⟩
    obtain rfl := encodeOfDecodeIsTheWord w i hd
    exact encoding_statement i
  · rintro ⟨r, hr, rfl, hw⟩
    exact row_decode hr w hw

/-- Two rows of the table whose fixed bits are compatible are the same row. -/
theorem row_eq_of_compatible : ∀ r₁ ∈ opcodeTable, ∀ r₂ ∈ opcodeTable,
    r₁.value &&& r₂.mask = r₂.value &&& r₁.mask → r₁ = r₂ := by decide

/-- Settles O4: two rows that match one word agree on the bits that both fix. -/
theorem opcodeRowsNeverOverlap : Obligations.OpcodeRowsNeverOverlap := by
  intro w r₁ hr₁ r₂ hr₂ h₁ h₂
  apply row_eq_of_compatible r₁ hr₁ r₂ hr₂
  rw [rowMatches, beq_iff_eq] at h₁ h₂
  rw [← h₁, ← h₂, BitVec.and_assoc, BitVec.and_assoc, BitVec.and_comm r₁.mask]

/-! ## The unknown words, family by family -/

theorem decodeFamily0_eq_none {w : Word} : decodeFamily0 w = none ↔ w ≠ 0x00E0 ∧ w ≠ 0x00EE := by
  unfold decodeFamily0
  split
  · simp [*]
  · split <;> simp [*]

theorem decodeFamily8_eq_none {w : Word} :
    decodeFamily8 w = none ↔ nField w ∈ [0x8#4, 0x9#4, 0xA#4, 0xB#4, 0xC#4, 0xD#4, 0xF#4] := by
  rcases nibble_cases (nField w) with n | n | n | n | n | n | n | n | n | n | n | n | n | n | n | n <;>
    simp [decodeFamily8, n]

theorem decodeFamilyE_eq_none {w : Word} : decodeFamilyE w = none ↔ nnField w ∉ [0x9E#8, 0xA1#8] := by
  unfold decodeFamilyE
  split <;> simp_all

theorem decodeFamilyF_eq_none {w : Word} : decodeFamilyF w = none ↔
    nnField w ∉ [0x07#8, 0x0A#8, 0x15#8, 0x18#8, 0x1E#8, 0x29#8, 0x33#8, 0x55#8, 0x65#8] := by
  unfold decodeFamilyF
  split <;> simp_all

/-- Settles O5: the leading nibble selects the family, and each family's list is what it does not decode. -/
theorem unknownWordsAreTheListedOnes : Obligations.UnknownWordsAreTheListedOnes := by
  intro w
  rw [← decodeFamily0_eq_none, ← decodeFamily8_eq_none, ← decodeFamilyE_eq_none, ← decodeFamilyF_eq_none]
  rcases nibble_cases (opField w) with
    op | op | op | op | op | op | op | op | op | op | op | op | op | op | op | op <;>
    simp [decode, op]

/-- Settles O6: the decoder computes each of the twenty-three words. -/
theorem sampleWordsDecode : Obligations.SampleWordsDecode := by
  unfold Obligations.SampleWordsDecode
  decide

end Sys2Proof.Decoding
end

section
/-! PROOFS. Instructions as written (spec/30_encoding.md section 4). The check of a written instruction is a row's operand
form; each form keeps the numbers it accepts. -/
namespace Sys2Proof.Source

/-- A value of the field's width fits its field, and stands for itself. -/
@[simp] theorem fitOperand_toNat {w : Nat} (e : SourceError) (b : BitVec w) : fitOperand w e b.toNat = .ok b := by
  simp [fitOperand, b.isLt]

@[simp] theorem addrForm_toNat (mk : Addr → Instr) (a : Addr) : addrForm mk [a.toNat] = .ok (mk a) := by
  simp [addrForm, Except.map]

@[simp] theorem regForm_toNat (mk : RegIdx → Instr) (x : RegIdx) : regForm mk [x.toNat] = .ok (mk x) := by
  simp [regForm, Except.map]

@[simp] theorem regByteForm_toNat (mk : RegIdx → Byte → Instr) (x : RegIdx) (nn : Byte) :
    regByteForm mk [x.toNat, nn.toNat] = .ok (mk x nn) := by
  simp [regByteForm, Except.map, Except.bind]

@[simp] theorem regRegForm_toNat (mk : RegIdx → RegIdx → Instr) (x y : RegIdx) :
    regRegForm mk [x.toNat, y.toNat] = .ok (mk x y) := by
  simp [regRegForm, Except.map, Except.bind]

@[simp] theorem regRegNibbleForm_toNat (mk : RegIdx → RegIdx → Nibble → Instr) (x y : RegIdx) (n : Nibble) :
    regRegNibbleForm mk [x.toNat, y.toNat, n.toNat] = .ok (mk x y n) := by
  simp [regRegNibbleForm, Except.map, Except.bind]

/-- Settles O7: the row that an instruction's name selects has the instruction's own format, and each format's check gives
back operands that are values of their fields. -/
theorem writtenInstructionStandsForItself : Obligations.WrittenInstructionStandsForItself := by
  intro i
  cases i
  case clearScreen | ret => rfl
  case jump a | call a | setIndex a | jumpOffset a => exact addrForm_toNat _ a
  case skipEqImm x nn | skipNeImm x nn | loadImm x nn | addImm x nn | random x nn => exact regByteForm_toNat _ x nn
  case drawSprite x y n => exact regRegNibbleForm_toNat _ x y n
  case skipEqReg x y | skipNeReg x y | assignReg x y | orReg x y | andReg x y | xorReg x y | addReg x y | subReg x y |
      shrReg x y | subnReg x y | shlReg x y => exact regRegForm_toNat _ x y
  case skipKeyPressed x | skipKeyNotPressed x | getDelayTimer x | waitKey x | setDelayTimer x | setSoundTimer x |
      addToIndex x | fontCharAddress x | storeBcd x | storeRegisters x | loadRegisters x => exact regForm_toNat _ x

/-- What a form accepts has the row's name and the operands as written. -/
def Faithful (name : String) (form : List Nat → Except SourceError Instr) : Prop :=
  ∀ ops i, form ops = .ok i → i.name = name ∧ i.operands = ops

/-- An operand that fits is the number written: nothing is truncated. -/
theorem toNat_of_fitOperand {w : Nat} {e : SourceError} {v : Nat} {b : BitVec w} (h : fitOperand w e v = .ok b) :
    b.toNat = v := by
  unfold fitOperand at h
  split at h
  · cases h
    exact Nat.mod_eq_of_lt ‹_›
  · cases h

theorem bind_eq_ok {ε α β : Type} {r : Except ε α} {f : α → Except ε β} {b : β} :
    r.bind f = .ok b ↔ ∃ a, r = .ok a ∧ f a = .ok b := by
  cases r <;> simp [Except.bind]

theorem map_eq_ok {ε α β : Type} {r : Except ε α} {f : α → β} {b : β} :
    r.map f = .ok b ↔ ∃ a, r = .ok a ∧ f a = b := by
  cases r <;> simp [Except.map]

theorem Faithful.fixed {name : String} {i : Instr} (hn : i.name = name := by rfl)
    (ho : i.operands = [] := by rfl) : Faithful name (fixedForm i) := by
  intro ops j h
  unfold fixedForm at h
  split at h
  · cases h
    exact ⟨hn, ho⟩
  · cases h

theorem Faithful.addr {name : String} {mk : Addr → Instr} (hn : ∀ a, (mk a).name = name := by intros; rfl)
    (ho : ∀ a, (mk a).operands = [a.toNat] := by intros; rfl) : Faithful name (addrForm mk) := by
  intro ops i h
  unfold addrForm at h
  split at h
  · obtain ⟨a, ha, rfl⟩ := map_eq_ok.1 h
    rw [ho, toNat_of_fitOperand ha]
    exact ⟨hn a, rfl⟩
  · cases h

theorem Faithful.reg {name : String} {mk : RegIdx → Instr} (hn : ∀ x, (mk x).name = name := by intros; rfl)
    (ho : ∀ x, (mk x).operands = [x.toNat] := by intros; rfl) : Faithful name (regForm mk) := by
  intro ops i h
  unfold regForm at h
  split at h
  · obtain ⟨x, hx, rfl⟩ := map_eq_ok.1 h
    rw [ho, toNat_of_fitOperand hx]
    exact ⟨hn x, rfl⟩
  · cases h

theorem Faithful.regByte {name : String} {mk : RegIdx → Byte → Instr}
    (hn : ∀ x nn, (mk x nn).name = name := by intros; rfl)
    (ho : ∀ x nn, (mk x nn).operands = [x.toNat, nn.toNat] := by intros; rfl) : Faithful name (regByteForm mk) := by
  intro ops i h
  unfold regByteForm at h
  split at h
  · obtain ⟨x, hx, h⟩ := bind_eq_ok.1 h
    obtain ⟨nn, hnn, rfl⟩ := map_eq_ok.1 h
    rw [ho, toNat_of_fitOperand hx, toNat_of_fitOperand hnn]
    exact ⟨hn x nn, rfl⟩
  · cases h

theorem Faithful.regReg {name : String} {mk : RegIdx → RegIdx → Instr}
    (hn : ∀ x y, (mk x y).name = name := by intros; rfl)
    (ho : ∀ x y, (mk x y).operands = [x.toNat, y.toNat] := by intros; rfl) : Faithful name (regRegForm mk) := by
  intro ops i h
  unfold regRegForm at h
  split at h
  · obtain ⟨x, hx, h⟩ := bind_eq_ok.1 h
    obtain ⟨y, hy, rfl⟩ := map_eq_ok.1 h
    rw [ho, toNat_of_fitOperand hx, toNat_of_fitOperand hy]
    exact ⟨hn x y, rfl⟩
  · cases h

theorem Faithful.regRegNibble {name : String} {mk : RegIdx → RegIdx → Nibble → Instr}
    (hn : ∀ x y n, (mk x y n).name = name := by intros; rfl)
    (ho : ∀ x y n, (mk x y n).operands = [x.toNat, y.toNat, n.toNat] := by intros; rfl) :
    Faithful name (regRegNibbleForm mk) := by
  intro ops i h
  unfold regRegNibbleForm at h
  split at h
  · obtain ⟨x, hx, h⟩ := bind_eq_ok.1 h
    obtain ⟨y, hy, h⟩ := bind_eq_ok.1 h
    obtain ⟨n, hn', rfl⟩ := map_eq_ok.1 h
    rw [ho, toNat_of_fitOperand hx, toNat_of_fitOperand hy, toNat_of_fitOperand hn']
    exact ⟨hn x y n, rfl⟩
  · cases h

/-- What holds of every pair of a list holds of the pair that a lookup finds. -/
theorem forall_lookup {α : Type} {P : String → α → Prop} {l : List (String × α)} (hall : ∀ p ∈ l, P p.1 p.2) {k : String}
    {b : α} (h : l.lookup k = some b) : P k b := by
  obtain ⟨l₁, l₂, rfl, -⟩ := List.lookup_eq_some_iff.1 h
  exact hall (k, b) (by simp)

/-- Every row's operand form is faithful to the row's name. -/
theorem faithful_formOf {name : String} {form : List Nat → Except SourceError Instr} (h : formOf name = some form) :
    Faithful name form := by
  refine forall_lookup ?_ h
  simp only [List.forall_mem_cons]
  exact ⟨.fixed, .fixed, .addr, .addr, .regByte, .regByte, .regReg, .regByte, .regByte, .regReg, .regReg, .regReg, .regReg,
    .regReg, .regReg, .regReg, .regReg, .regReg, .regReg, .addr, .addr, .regByte, .regRegNibble, .reg, .reg, .reg, .reg,
    .reg, .reg, .reg, .reg, .reg, .reg, .reg, List.forall_mem_nil _⟩

/-- Settles O8: what the check accepts, the form of the row of that name accepted. -/
theorem sourceCheckNeverTruncates : Obligations.SourceCheckNeverTruncates := by
  intro t i h
  unfold SourceInstr.check at h
  split at h
  · exact faithful_formOf ‹_› t.operands i h
  · cases h

end Sys2Proof.Source
end

section
/-! PROOFS. What any instruction can do (spec/60_exceptions.md sections 1 and 2, spec/10_state.md section 8). An instruction
either raises one of the three fatal errors, exactly in the cases listed in `Raises`, or completes with one of the
effects listed in `Effect`. The statements about all instructions are read off these two. -/
namespace Sys2Proof.Effects
open Sys2Proof.Machine Sys2Proof.Claims

/-- The instruction raises the fatal error (R201, R202, R203). -/
inductive Raises (s : State) : Instr → ErrorKind → Prop
  | outOfRange {i} (h : raisesOutOfRange s i) : Raises s i .outOfRangeAddress
  | overflow {nnn} (h : s.sp.val = 16) : Raises s (.call nnn) .stackOverflow
  | underflow (h : s.sp.val = 0) : Raises s .ret .stackUnderflow

/-- What an instruction that completes leaves, by the shape of what it writes. -/
inductive Effect (s : State) : Instr → State → Prop
  | clear (fb : Framebuffer) : Effect s .clearScreen ({ s with fb := fb }.setPc (s.pc + 2))
  | ret (h : 0 < s.sp.val) (top : s.stack[s.sp.val - 1].toNat ≤ 0xFFF) :
      Effect s .ret ({ s with sp := ⟨s.sp.val - 1, by omega⟩ }.setPc s.stack[s.sp.val - 1])
  | jump (nnn : Addr) : Effect s (.jump nnn) (s.setPc (zextAddr nnn))
  | call (nnn : Addr) (h : s.sp.val < 16) :
      Effect s (.call nnn)
        ({ s with stack := s.stack.set s.sp.val (s.pc + 2), sp := ⟨s.sp.val + 1, by omega⟩ }.setPc (zextAddr nnn))
  | skip {i} (hi : isSkip i = true) (c : Bool) : Effect s i (s.setPc (s.pc + if c then 4 else 2))
  | plain {i x} (hi : plainDestination i = some x) (hkey : ∀ y, i = .waitKey y → s.keys ≠ 0) (u : Byte) (d : Nat) :
      Effect s i (({ s with draws := d }.setReg x u).setPc (s.pc + 2))
  | flagged {i x} (hi : flagDestination i = some x) (u : Byte) (c : Bool) :
      Effect s i (((s.setReg x u).setReg vf (flagByte c)).setPc (s.pc + 2))
  | index {i} (hi : mayWriteI i = true) (w : Word) : Effect s i ({ s with i := w }.setPc (s.pc + 2))
  | jumpOffset (nnn : Addr) (h : nnn.toNat + (s.reg 0).toNat ≤ 0xFFF) :
      Effect s (.jumpOffset nnn) (s.setPc (BitVec.ofNat 16 (nnn.toNat + (s.reg 0).toNat)))
  | draw (x y : RegIdx) (n : Nibble) (fb : Framebuffer) (c : Bool) :
      Effect s (.drawSprite x y n) (({ s with fb := fb }.setReg vf (flagByte c)).setPc (s.pc + 2))
  | hold (x : RegIdx) (h : s.keys = 0) : Effect s (.waitKey x) s
  | delay (x : RegIdx) (u : Byte) : Effect s (.setDelayTimer x) ({ s with dt := u }.setPc (s.pc + 2))
  | sound (x : RegIdx) (u : Byte) : Effect s (.setSoundTimer x) ({ s with st := u }.setPc (s.pc + 2))
  | store {i} (hi : mayWriteMem i = true) (us : List Byte) (h : s.i.toNat + us.length ≤ 0x1000) :
      Effect s i ((s.store s.i.toNat us).setPc (s.pc + 2))
  | load (x : RegIdx) : Effect s (.loadRegisters x) ((loadRegsUpTo s x s.i.toNat).setPc (s.pc + 2))

variable {s t : State} {i : Instr} {e : ErrorKind}

/-! ## Every instruction raises or completes -/

/-- An instruction that raises leaves the state with `HALT` and the error's code (R205). -/
theorem exec_of_raises (h : Raises s i e) : exec i s = .next (s.halted e) := by
  cases h with
  | overflow h => exact exec_call_iff.2 (.inl ⟨h, rfl⟩)
  | underflow h => exact exec_ret_iff.2 (.inl ⟨h, rfl⟩)
  | outOfRange h =>
    cases i
    case ret =>
      obtain ⟨top, pos, get, range⟩ := h
      obtain ⟨_, rfl⟩ := Vector.getElem?_eq_some_iff.1 get
      exact exec_ret_iff.2 (.inr ⟨pos, .inl ⟨range, rfl⟩⟩)
    case jumpOffset => exact exec_jumpOffset_iff.2 (.inl ⟨h, rfl⟩)
    case drawSprite => exact exec_drawSprite_iff.2 (.inl ⟨h.1, h.2, rfl⟩)
    case storeBcd => exact exec_storeBcd_iff.2 (.inl ⟨h, rfl⟩)
    case storeRegisters => exact exec_storeRegisters_iff.2 (.inl ⟨h, rfl⟩)
    case loadRegisters => exact exec_loadRegisters_iff.2 (.inl ⟨h, rfl⟩)
    all_goals exact h.elim

/-- The result completes with one of the listed effects. -/
def Completes (s : State) (i : Instr) (r : Result) : Prop := ∃ t, r = .next t ∧ Effect s i t

theorem Completes.skip {c : Bool} (hi : isSkip i = true) (h : exec i s = skipIf c s) : Completes s i (exec i s) :=
  ⟨_, h.trans (skipIf_eq_next.2 rfl), .skip hi c⟩

theorem Completes.plain {x : RegIdx} {u : Byte} (hi : plainDestination i = some x) (hkey : ∀ y, i ≠ .waitKey y)
    (h : exec i s = advance (s.setReg x u)) : Completes s i (exec i s) :=
  ⟨_, h, .plain hi (fun y hy => absurd hy (hkey y)) u s.draws⟩

theorem Completes.flagged {x : RegIdx} {u : Byte} {c : Bool} (hi : flagDestination i = some x)
    (h : exec i s = writeResultThenFlag x u c s) : Completes s i (exec i s) :=
  ⟨_, h, .flagged hi u c⟩

theorem completes_ret (h : ∀ e, ¬Raises s .ret e) : Completes s .ret (exec .ret s) := by
  have pos : 0 < s.sp.val := Nat.pos_of_ne_zero fun h0 => h _ (.underflow h0)
  have top : s.stack[s.sp.val - 1].toNat ≤ 0xFFF :=
    Nat.le_of_not_lt fun range => h _ (.outOfRange ⟨_, pos, Vector.getElem?_eq_getElem _, range⟩)
  exact ⟨_, exec_ret_iff.2 (.inr ⟨pos, .inr ⟨top, rfl⟩⟩), .ret pos top⟩

theorem completes_drawSprite {x y : RegIdx} {n : Nibble} (h : ∀ e, ¬Raises s (.drawSprite x y n) e) :
    Completes s (.drawSprite x y n) (exec (.drawSprite x y n) s) := by
  have range : n.toNat = 0 ∨ s.i.toNat + n.toNat - 1 ≤ 0xFFF := by
    by_contra hc
    exact h _ (.outOfRange ⟨by omega, by omega⟩)
  exact ⟨_, exec_drawSprite_iff.2 (.inr ⟨range, rfl⟩), .draw ..⟩

theorem completes_waitKey (x : RegIdx) : Completes s (.waitKey x) (exec (.waitKey x) s) := by
  by_cases hk : s.keys = 0
  · exact ⟨_, exec_waitKey_iff.2 (.inl ⟨hk, rfl⟩), .hold x hk⟩
  · exact ⟨_, exec_waitKey_iff.2 (.inr ⟨hk, rfl⟩), .plain rfl (fun _ _ => hk) _ s.draws⟩

/-- An instruction that raises nothing completes. -/
theorem exec_completes (h : ∀ e, ¬Raises s i e) : Completes s i (exec i s) := by
  cases i
  case clearScreen => exact ⟨_, exec_clearScreen_iff.2 rfl, .clear _⟩
  case ret => exact completes_ret h
  case jump => exact ⟨_, exec_jump_iff.2 rfl, .jump _⟩
  case call =>
    have room : s.sp.val < 16 := by
      have notFull : s.sp.val ≠ 16 := fun full => h _ (.overflow full)
      omega
    exact ⟨_, exec_call_iff.2 (.inr ⟨room, rfl⟩), .call _ room⟩
  case skipEqImm | skipNeImm | skipEqReg | skipNeReg | skipKeyPressed | skipKeyNotPressed => exact .skip rfl rfl
  case loadImm | addImm | assignReg | orReg | andReg | xorReg | getDelayTimer => exact .plain rfl (by simp) rfl
  case addReg | subReg | shrReg | subnReg | shlReg => exact .flagged rfl rfl
  case setIndex => exact ⟨_, exec_setIndex_iff.2 rfl, .index rfl _⟩
  case addToIndex => exact ⟨_, exec_addToIndex_iff.2 rfl, .index rfl _⟩
  case fontCharAddress => exact ⟨_, exec_fontCharAddress_iff.2 rfl, .index rfl _⟩
  case jumpOffset =>
    have range := Nat.le_of_not_lt fun range => h _ (.outOfRange range)
    exact ⟨_, exec_jumpOffset_iff.2 (.inr ⟨range, rfl⟩), .jumpOffset _ range⟩
  case random => exact ⟨_, exec_random_iff.2 rfl, .plain rfl (by simp) _ _⟩
  case drawSprite => exact completes_drawSprite h
  case waitKey => exact completes_waitKey _
  case setDelayTimer => exact ⟨_, exec_setDelayTimer_iff.2 rfl, .delay ..⟩
  case setSoundTimer => exact ⟨_, exec_setSoundTimer_iff.2 rfl, .sound ..⟩
  case storeBcd =>
    have range := Nat.le_of_not_lt fun range => h _ (.outOfRange range)
    exact ⟨_, exec_storeBcd_iff.2 (.inr ⟨range, rfl⟩), .store rfl _ (by rw [length_bcdDigits]; omega)⟩
  case storeRegisters =>
    have range := Nat.le_of_not_lt fun range => h _ (.outOfRange range)
    exact ⟨_, exec_storeRegisters_iff.2 (.inr ⟨range, rfl⟩), .store rfl _ (by rw [length_regsUpTo]; omega)⟩
  case loadRegisters =>
    have range := Nat.le_of_not_lt fun range => h _ (.outOfRange range)
    exact ⟨_, exec_loadRegisters_iff.2 (.inr ⟨range, rfl⟩), .load _⟩

/-- Every instruction, in every state, raises or completes. -/
theorem exec_cases (i : Instr) (s : State) :
    (∃ e, Raises s i e ∧ exec i s = .next (s.halted e)) ∨ ∃ t, exec i s = .next t ∧ Effect s i t := by
  by_cases h : ∃ e, Raises s i e
  · obtain ⟨e, he⟩ := h
    exact .inl ⟨e, he, exec_of_raises he⟩
  · exact .inr (exec_completes (not_exists.1 h))

/-- The same of an instruction given its random byte. -/
theorem execWith_cases (rnd : Byte) (i : Instr) (s : State) :
    (∃ e, Raises s i e ∧ execWith rnd i s = .next (s.halted e)) ∨ ∃ t, execWith rnd i s = .next t ∧ Effect s i t := by
  cases i
  case random => exact .inr ⟨_, randomWith_iff.2 rfl, .plain rfl (by simp) _ _⟩
  all_goals exact exec_cases _ s

/-- An instruction run by the step draws the model's free byte. -/
theorem exec_eq_execWith (i : Instr) (s : State) : exec i s = execWith (Config.randomByte s.draws) i s := by
  cases i <;> rfl

/-- An instruction's answer: the state with an error raised, or one of the listed effects. -/
theorem execWith_eq_next {rnd : Byte} (h : execWith rnd i s = .next t) :
    (∃ e, Raises s i e ∧ t = s.halted e) ∨ Effect s i t := by
  rcases execWith_cases rnd i s with ⟨e, he, hx⟩ | ⟨u, hx, hu⟩ <;> cases hx.symm.trans h
  · exact .inl ⟨e, he, rfl⟩
  · exact .inr hu

theorem exec_eq_next (h : exec i s = .next t) : (∃ e, Raises s i e ∧ t = s.halted e) ∨ Effect s i t :=
  execWith_eq_next ((exec_eq_execWith i s).symm.trans h)

/-- The three errors of `Execute` (R200). -/
theorem Raises.kind (h : Raises s i e) : e = .outOfRangeAddress ∨ e = .stackOverflow ∨ e = .stackUnderflow := by
  cases h with
  | outOfRange => exact .inl rfl
  | overflow => exact .inr (.inl rfl)
  | underflow => exact .inr (.inr rfl)

/-! ## What an effect leaves unchanged -/

theorem Effect.halt_eq (h : Effect s i t) : t.halt = s.halt := by cases h <;> rfl

theorem Effect.err_eq (h : Effect s i t) : t.err = s.err := by cases h <;> rfl

theorem Effect.unk_eq (h : Effect s i t) : t.unk = s.unk := by cases h <;> rfl

theorem Effect.keys_eq (h : Effect s i t) : t.keys = s.keys := by cases h <;> rfl

theorem Effect.i_eq (h : Effect s i t) (hi : ¬mayWriteI i = true) : t.i = s.i := by
  cases h with
  | index hi' => exact absurd hi' hi
  | _ => rfl

theorem Effect.stack_eq (h : Effect s i t) (hi : ¬mayWriteStack i = true) : t.sp = s.sp ∧ t.stack = s.stack := by
  cases h with
  | call | ret => exact absurd rfl hi
  | _ => exact ⟨rfl, rfl⟩

theorem Effect.dt_eq (h : Effect s i t) (hi : ¬∃ x, i = .setDelayTimer x) : t.dt = s.dt := by
  cases h with
  | delay x => exact absurd ⟨x, rfl⟩ hi
  | _ => rfl

theorem Effect.st_eq (h : Effect s i t) (hi : ¬∃ x, i = .setSoundTimer x) : t.st = s.st := by
  cases h with
  | sound x => exact absurd ⟨x, rfl⟩ hi
  | _ => rfl

theorem Effect.fb_eq (h : Effect s i t) (hi : ¬mayWriteFb i = true) : t.fb = s.fb := by
  cases h with
  | clear | draw => exact absurd rfl hi
  | _ => rfl

theorem Effect.mem_eq (h : Effect s i t) (hi : ¬mayWriteMem i = true) : t.mem = s.mem := by
  cases h with
  | store hi' => exact absurd hi' hi
  | _ => rfl

/-- A key wait with no key down holds. -/
theorem Effect.eq_of_waiting {x : RegIdx} (h : Effect s (.waitKey x) t) (hk : s.keys = 0) : t = s := by
  cases h with
  | hold => rfl
  | plain _ hkey => exact absurd hk (hkey x rfl)
  | skip hi | flagged hi | index hi | store hi => cases hi

/-- A register instruction with a flag is one of the flag setters. -/
theorem setsFlag_of_flagDestination {x : RegIdx} (h : flagDestination i = some x) : setsFlag i = true := by
  cases i
  case addReg | subReg | shrReg | subnReg | shlReg => rfl
  all_goals cases h

/-- A register that the instruction's row does not name is kept. -/
theorem Effect.reg_eq (h : Effect s i t) {r : RegIdx} (hr : ¬mayWriteReg i r) : t.reg r = s.reg r := by
  cases h with
  | plain hi =>
    have ne : r ≠ _ := fun eq => hr (.inl (eq ▸ hi))
    exact (State.reg_setReg ..).trans (if_neg ne)
  | flagged hi =>
    have ne : r ≠ _ := fun eq => hr (.inr (.inl (eq ▸ hi)))
    have ne_vf : r ≠ vf := fun eq => hr (.inr (.inr (.inl ⟨setsFlag_of_flagDestination hi, eq⟩)))
    rw [State.reg_setPc, State.reg_setReg, if_neg ne_vf, State.reg_setReg, if_neg ne]
  | draw =>
    have ne_vf : r ≠ vf := fun eq => hr (.inr (.inr (.inl ⟨rfl, eq⟩)))
    exact (State.reg_setReg ..).trans (if_neg ne_vf)
  | load x =>
    have above : ¬r.toNat ≤ x.toNat := fun le => hr (.inr (.inr (.inr ⟨x, rfl, le⟩)))
    exact (reg_loadRegsUpTo ..).trans (if_neg above)
  | _ => rfl

end Sys2Proof.Effects
end

section
/-! PROOFS. Rules about all instructions. Each is read off the two lists `Raises` and `Effect`. -/
namespace Sys2Proof.AllInstructions
open Sys2Proof.Machine Sys2Proof.Claims Sys2Proof.Effects

variable {s t : State} {i : Instr} {e : ErrorKind}

/-- Settles O13: an instruction raises, which is a next state too, or completes. -/
theorem everyInstructionAnswersAState : Obligations.EveryInstructionAnswersAState := by
  intro i s
  obtain ⟨e, -, hx⟩ | ⟨t, hx, -⟩ := exec_cases i s
  · exact ⟨_, hx⟩
  · exact ⟨t, hx⟩

/-! ## Errors -/

/-- An instruction of a running core that leaves it halted has raised, since every effect keeps `HALT`. -/
theorem raises_of_halts (hs : s.halt = false) (h : exec i s = .next t) (ht : t.halt = true) :
    ∃ e, Raises s i e ∧ t = s.halted e := by
  obtain raised | effect := exec_eq_next h
  · exact raised
  · simp [effect.halt_eq, hs] at ht

/-- Settles O19: what halts the core has raised one of the three errors that an instruction raises. -/
theorem fatalErrorChangesOnlyHaltAndErr : Obligations.FatalErrorChangesOnlyHaltAndErr := by
  intro i s t hs h ht
  obtain ⟨e, he, rfl⟩ := raises_of_halts hs h ht
  obtain rfl | rfl | rfl := he.kind
  · exact .inl rfl
  · exact .inr (.inl rfl)
  · exact .inr (.inr rfl)

/-- The code of an error tells the error (R200). -/
theorem code_injective {e e' : ErrorKind} (h : e.code = e'.code) : e = e' := by
  have decodes (k : ErrorKind) : ErrorKind.ofCode k.code = some k := by cases k <;> rfl
  exact Option.some.inj ((decodes e).symm.trans ((congrArg _ h).trans (decodes e')))

/-- An instruction of a running core answers an error's state exactly when it raises that error. -/
theorem exec_eq_halted_iff (hs : s.halt = false) : exec i s = .next (s.halted e) ↔ Raises s i e := by
  refine ⟨fun h => ?_, exec_of_raises⟩
  obtain ⟨e', he, eq⟩ := raises_of_halts hs h rfl
  exact code_injective (congrArg State.err eq) ▸ he

/-- Settles O20: `Raises` lists the places. -/
theorem outOfRangeIsRaisedExactlyWhereListed : Obligations.OutOfRangeIsRaisedExactlyWhereListed := by
  intro i s hs
  refine (exec_eq_halted_iff (e := .outOfRangeAddress) hs).trans ⟨fun h => ?_, .outOfRange⟩
  cases h with
  | outOfRange h => exact h

/-- Settles O22: `return` is the one instruction that underflows, and does so exactly on an empty stack. -/
theorem returnOnEmptyStackUnderflows : Obligations.ReturnOnEmptyStackUnderflows := by
  intro s hs
  refine (exec_eq_halted_iff (e := .stackUnderflow) hs).trans ⟨fun h => ?_, .underflow⟩
  cases h with
  | underflow h => exact h

/-! ## What an instruction writes -/

/-- Settles O46: an instruction that raises writes none of these elements; of one that completes, the effect writes only
what its row shows. -/
theorem instructionsWriteOnlyTheirRowsElements : Obligations.InstructionsWriteOnlyTheirRowsElements := by
  intro i s t h
  obtain ⟨e, -, rfl⟩ | h := exec_eq_next h
  · simp
  · refine ⟨fun r => ?reg, ?i, ?stack, ?dt, ?st, ?fb, ?mem, h.keys_eq, h.unk_eq⟩
    case reg => exact not_imp_comm.1 h.reg_eq
    case i => exact not_imp_comm.1 h.i_eq
    case stack => exact fun ne => by_contra fun hi => ne.elim (· (h.stack_eq hi).1) (· (h.stack_eq hi).2)
    case dt => exact not_imp_comm.1 h.dt_eq
    case st => exact not_imp_comm.1 h.st_eq
    case fb => exact not_imp_comm.1 h.fb_eq
    case mem => exact not_imp_comm.1 h.mem_eq

/-- A flag setter that completes leaves a flag in VF. -/
theorem reg_vf_of_setsFlag (h : Effect s i t) (hi : setsFlag i = true) : t.reg 15 = 0 ∨ t.reg 15 = 1 := by
  have flag (u : State) (c : Bool) : (u.setReg vf (flagByte c)).reg 15 = 0 ∨ (u.setReg vf (flagByte c)).reg 15 = 1 := by
    rw [show (15 : RegIdx) = vf from rfl, State.reg_setReg_same]
    cases c
    · exact .inl rfl
    · exact .inr rfl
  cases h with
  | flagged | draw => exact flag _ _
  | skip hi' | plain hi' | index hi' | store hi' => cases i <;> cases hi' <;> cases hi
  | _ => cases hi

/-- The rows that show register 15 written are those of the named instructions. -/
theorem setsVf_of_mayWriteReg (h : mayWriteReg i 15) :
    setsFlag i = true ∨ i = .loadRegisters 15 ∨ plainDestination i = some 15 := by
  obtain plain | flag | ⟨sets, -⟩ | ⟨x, rfl, hx⟩ := h
  · exact .inr (.inr plain)
  · exact .inl (setsFlag_of_flagDestination flag)
  · exact .inl sets
  · have top : x = 15 := by bv_omega
    exact .inr (.inl (congrArg _ top))

/-- Settles O45: of the instructions that may write register 15, and what the flag setters leave there. -/
theorem onlyTheNamedInstructionsWriteVf : Obligations.OnlyTheNamedInstructionsWriteVf := by
  intro i s t hs h
  refine ⟨fun ne => ?writes, fun hi ht => ?flag⟩
  case writes => exact setsVf_of_mayWriteReg ((instructionsWriteOnlyTheirRowsElements i s t h).1 15 ne)
  case flag =>
    obtain ⟨e, -, rfl⟩ | effect := exec_eq_next h
    · cases ht
    · exact reg_vf_of_setsFlag effect hi

/-! ## How `PC` moves -/

/-- The instructions whose `PC` R24 gives a rule of its own: the redirections and the key wait. -/
def movesPc : Instr → Bool
  | .jump _ | .call _ | .jumpOffset _ | .ret | .waitKey _ => true
  | _ => false

/-- Every other instruction advances or skips. -/
theorem pc_of_not_movesPc (h : Effect s i t) (hi : movesPc i = false) :
    t.pc = s.pc + 2 ∨ isSkip i = true ∧ t.pc = s.pc + 4 := by
  cases h with
  | skip hi c =>
    cases c
    · exact .inl rfl
    · exact .inr ⟨hi, rfl⟩
  | ret | jump | call | jumpOffset | hold => cases hi
  | _ => exact .inl rfl

/-- An address in range fits the 16 bits of `PC`. -/
theorem toNat_ofNat_of_le {k : Nat} (h : k ≤ 0xFFF) : (BitVec.ofNat 16 k).toNat = k := Nat.mod_eq_of_lt (by omega)

theorem pc_ret (h : Effect s .ret t) : s.stack[s.sp.val - 1]? = some t.pc := by
  cases h with
  | ret => exact Vector.getElem?_eq_getElem _
  | skip hi | plain hi | flagged hi | index hi | store hi => cases hi

theorem pc_call {nnn : Addr} (h : Effect s (.call nnn) t) : t.pc.toNat = nnn.toNat := by
  cases h with
  | call => exact toNat_zextAddr nnn
  | skip hi | plain hi | flagged hi | index hi | store hi => cases hi

theorem pc_jump {nnn : Addr} (h : Effect s (.jump nnn) t) : t.pc.toNat = nnn.toNat := by
  cases h with
  | jump => exact toNat_zextAddr nnn
  | skip hi | plain hi | flagged hi | index hi | store hi => cases hi

theorem pc_jumpOffset {nnn : Addr} (h : Effect s (.jumpOffset nnn) t) : t.pc.toNat = nnn.toNat + (s.reg 0).toNat := by
  cases h with
  | jumpOffset _ range => exact toNat_ofNat_of_le range
  | skip hi | plain hi | flagged hi | index hi | store hi => cases hi

theorem pc_waitKey {x : RegIdx} (h : Effect s (.waitKey x) t) : t.pc = s.pc + if s.keys = 0 then 0 else 2 := by
  cases h with
  | hold _ none => rw [if_pos none]; exact (BitVec.add_zero s.pc).symm
  | plain _ hkey => rw [if_neg (hkey x rfl)]; rfl
  | skip hi | flagged hi | index hi | store hi => cases hi

/-- Settles O47: an instruction that leaves the core running has completed, and its effect fixes `PC`. -/
theorem pcMovesByTheInstructionsKind : Obligations.PcMovesByTheInstructionsKind := by
  intro i s t hs h ht
  obtain ⟨e, -, rfl⟩ | effect := exec_eq_next h
  · cases ht
  cases i
  case jump => exact pc_jump effect
  case call => exact pc_call effect
  case ret => exact pc_ret effect
  case jumpOffset => exact pc_jumpOffset effect
  case waitKey => exact pc_waitKey effect
  all_goals exact pc_of_not_movesPc effect rfl

end Sys2Proof.AllInstructions
end

section
/-! PROOFS. What instructions do not read (spec/43_display.md R163, spec/10_state.md R29). But for the instructions that write
one of them, running an instruction commutes with any change of the framebuffer, `ST` and `UNK`: none of the
directives, checks and stack operations looks at the three. -/
namespace Sys2Proof.Noninterference
open Sys2Proof.Machine Sys2Proof.Claims

/-- A result with a change made to the state it answers. -/
def mapNext (f : State → State) : Result → Result
  | .next t => .next (f t)
  | .fault r => .fault r
  | .refused r => .refused r

/-- The state with its framebuffer, `ST` and `UNK` changed. -/
def changeUnread (F : Framebuffer → Framebuffer) (g : Byte → Byte) (k : Bool → Bool) (s : State) : State :=
  { s with fb := F s.fb, st := g s.st, unk := k s.unk }

variable {F : Framebuffer → Framebuffer} {g : Byte → Byte} {k : Bool → Bool} {s t : State}

theorem skipIf_changeUnread (c : Bool) :
    skipIf c (changeUnread F g k s) = mapNext (changeUnread F g k) (skipIf c s) := by
  cases c <;> rfl

theorem checkRange_changeUnread {last : Nat} {r r' : Result} (h : r' = mapNext (changeUnread F g k) r) :
    checkRange last (changeUnread F g k s) r' = mapNext (changeUnread F g k) (checkRange last s r) := by
  unfold checkRange
  split
  · rfl
  · exact h

theorem push_changeUnread {u : Word} {rest : State → Result}
    (h : ∀ s, rest (changeUnread F g k s) = mapNext (changeUnread F g k) (rest s)) :
    push u (changeUnread F g k s) rest = mapNext (changeUnread F g k) (push u s rest) := by
  have sp : (changeUnread F g k s).sp = s.sp := rfl
  simp only [push, sp]
  split
  · exact h { s with stack := s.stack.set s.sp.val u, sp := ⟨s.sp.val + 1, by omega⟩ }
  · rfl

theorem pop_changeUnread {rest rest' : Word → State → Result}
    (h : ∀ top s, rest' top (changeUnread F g k s) = mapNext (changeUnread F g k) (rest top s)) :
    pop (changeUnread F g k s) rest' = mapNext (changeUnread F g k) (pop s rest) := by
  have sp : (changeUnread F g k s).sp = s.sp := rfl
  simp only [pop, sp]
  split
  · rfl
  · exact h _ { s with sp := ⟨s.sp.val - 1, by omega⟩ }

theorem execReturn_changeUnread :
    execReturn (changeUnread F g k s) = mapNext (changeUnread F g k) (execReturn s) :=
  pop_changeUnread (rest := fun top popped => checkRange top.toNat s (jumpTo top popped))
    (rest' := fun top popped => checkRange top.toNat (changeUnread F g k s) (jumpTo top popped))
    fun _ _ => checkRange_changeUnread rfl

theorem execWaitKey_changeUnread (x : RegIdx) :
    execWaitKey x (changeUnread F g k s) = mapNext (changeUnread F g k) (execWaitKey x s) := by
  have keys : keyWaitHolds (changeUnread F g k s) = keyWaitHolds s := rfl
  simp only [execWaitKey, keys]
  split <;> rfl

/-- The instructions that write the framebuffer or `ST`. -/
def writesUnread : Instr → Bool
  | .clearScreen | .drawSprite _ _ _ | .setSoundTimer _ => true
  | _ => false

/-- Every other instruction commutes with a change of the three elements. -/
theorem exec_changeUnread {i : Instr} (hi : writesUnread i = false) :
    exec i (changeUnread F g k s) = mapNext (changeUnread F g k) (exec i s) := by
  cases i
  case clearScreen | drawSprite | setSoundTimer => cases hi
  case ret => exact execReturn_changeUnread
  case call => exact push_changeUnread fun _ => rfl
  case jumpOffset | storeBcd | storeRegisters | loadRegisters => exact checkRange_changeUnread rfl
  case skipEqImm | skipNeImm | skipEqReg | skipNeReg | skipKeyPressed | skipKeyNotPressed => exact skipIf_changeUnread _
  case waitKey => exact execWaitKey_changeUnread _
  all_goals rfl

theorem exec_changeUnread_of_next {i : Instr} (hi : writesUnread i = false) (h : exec i s = .next t) :
    exec i (changeUnread F g k s) = .next (changeUnread F g k t) := by
  rw [exec_changeUnread hi, h]
  rfl

/-! ## The screen (R163) -/

/-- VF written with the value it has. -/
theorem set_vf_self (t : State) : t.v.set 15 (t.reg 15) = t.v := Vector.set_getElem_self _

/-- `draw-sprite` on another screen: the same effect but for the screen and the collision bit. -/
theorem exec_drawSprite_withFb {x y : RegIdx} {n : Nibble} (fb : Framebuffer) (h : exec (.drawSprite x y n) s = .next t) :
    ∃ fb' flag, exec (.drawSprite x y n) { s with fb := fb } = .next { t with fb := fb', v := t.v.set 15 flag } := by
  obtain ⟨pos, range, rfl⟩ | ⟨range, rfl⟩ := exec_drawSprite_iff.1 h
  · refine ⟨fb, s.reg 15, ?_⟩
    have same : (s.halted .outOfRangeAddress).v.set 15 (s.reg 15) = s.v := set_vf_self s
    rw [same]
    exact exec_drawSprite_iff.2 (.inl ⟨pos, range, rfl⟩)
  · refine ⟨(spriteDrawn x y n { s with fb := fb }).1, flagByte (spriteDrawn x y n { s with fb := fb }).2, ?_⟩
    refine exec_drawSprite_iff.2 (.inr ⟨range, ?_⟩)
    simp [State.setPc, State.setReg, vf]

/-- Settles O48: `clear-screen` blanks any screen, `draw-sprite` draws on any screen, and every other instruction commutes
with a change of the screen. -/
theorem screenFlowsOnlyIntoTheCollisionBit : Obligations.ScreenFlowsOnlyIntoTheCollisionBit := by
  intro i s t fb h
  have same (fb' : Framebuffer) (h' : exec i { s with fb := fb } = .next { t with fb := fb' }) :
      ∃ fb' flag, exec i { s with fb := fb } = .next { t with fb := fb', v := t.v.set 15 flag } ∧
        ((∀ x y n, i ≠ .drawSprite x y n) → flag = t.reg 15) :=
    ⟨fb', t.reg 15, by rw [set_vf_self, h'], fun _ => rfl⟩
  cases i
  case drawSprite x y n =>
    obtain ⟨fb', flag, h'⟩ := exec_drawSprite_withFb fb h
    exact ⟨fb', flag, h', fun ne => absurd rfl (ne x y n)⟩
  case clearScreen =>
    obtain rfl := exec_clearScreen_iff.1 h
    exact same (.replicate 32 0) rfl
  case setSoundTimer =>
    obtain rfl := exec_setSoundTimer_iff.1 h
    exact same fb rfl
  all_goals exact same fb (exec_changeUnread_of_next (F := fun _ => fb) (g := id) (k := id) rfl h)

/-- Settles O49: `set-sound-timer` overwrites any `ST`, and every other instruction commutes with a change of `ST` and
`UNK`. -/
theorem soundTimerAndUnkAreNeverRead : Obligations.SoundTimerAndUnkAreNeverRead := by
  intro i s t st unk h
  have kept (hi : ∀ x, i ≠ .setSoundTimer x)
      (h' : exec i { s with st := st, unk := unk } = .next { t with st := st, unk := unk }) :
      ∃ st', exec i { s with st := st, unk := unk } = .next { t with st := st', unk := unk } ∧
        ((∀ x, i ≠ .setSoundTimer x) → st' = st) ∧ (∀ x, i = .setSoundTimer x → st' = t.st) :=
    ⟨st, h', fun _ => rfl, fun x hx => absurd hx (hi x)⟩
  cases i
  case setSoundTimer x =>
    obtain rfl := exec_setSoundTimer_iff.1 h
    exact ⟨s.reg x, rfl, fun ne => absurd rfl (ne x), fun _ _ => rfl⟩
  case clearScreen =>
    obtain rfl := exec_clearScreen_iff.1 h
    exact kept (by simp) rfl
  case drawSprite =>
    refine kept (by simp) ?_
    obtain ⟨pos, range, rfl⟩ | ⟨range, rfl⟩ := exec_drawSprite_iff.1 h
    · exact exec_drawSprite_iff.2 (.inl ⟨pos, range, rfl⟩)
    · exact exec_drawSprite_iff.2 (.inr ⟨range, rfl⟩)
  all_goals
    exact kept (by simp) (exec_changeUnread_of_next (F := id) (g := fun _ => st) (k := fun _ => unk) rfl h)

end Sys2Proof.Noninterference
end

section
/-! PROOFS. The operation `Execute` and the step (spec/10_state.md section 9, spec/60_exceptions.md section 2). -/
namespace Sys2Proof.Execute
open Sys2Proof.Machine Sys2Proof.Claims Sys2Proof.Effects

variable {s t : State} {i : Instr} {w : Word} {rnd : Byte}

/-! ## The step, case by case -/

theorem step_of_decode (hs : s.halt = false) (hf : fetch s = some w) (hd : decode w = some i) : step s = exec i s := by
  simp [step, hs, hf, hd]

/-- Settles O9: the fetch forms the word of the two bytes, and the step decodes it. -/
theorem stepRunsTheDecodedInstruction : Obligations.StepRunsTheDecodedInstruction := fun _ _ hs hpc hd =>
  step_of_decode hs (fetch_eq_some.2 ⟨hpc, rfl⟩) hd

theorem hi_joinBytes (hi lo : Byte) : (joinBytes hi lo).extractLsb' 8 8 = hi := by
  ext k hk
  have : 8 + k < 16 := by omega
  simp [joinBytes, BitVec.getLsbD_eq_getElem, hk, this]

theorem lo_joinBytes (hi lo : Byte) : (joinBytes hi lo).extractLsb' 0 8 = lo := by
  ext k hk
  have : k < 16 := by omega
  simp [joinBytes, BitVec.getLsbD_eq_getElem, hk, this]

theorem step_of_fetch_none (hs : s.halt = false) (hf : fetch s = none) :
    step s = .next (s.halted .outOfRangeAddress) := by
  simp [step, hs, hf, raise]

/-- Settles O10: the word's two bytes are the two fetched, and without a fetch the step raises. -/
theorem fetchIsBigEndianAndRangeChecked : Obligations.FetchIsBigEndianAndRangeChecked := by
  intro s
  constructor
  · exact fun hpc => ⟨_, fetch_eq_some.2 ⟨hpc, rfl⟩, hi_joinBytes _ _, lo_joinBytes _ _⟩
  · intro hpc
    have none := fetch_eq_none.2 hpc
    exact ⟨none, fun hs => step_of_fetch_none hs none⟩

theorem step_of_unknown (hs : s.halt = false) (hf : fetch s = some w) (hd : decode w = none) :
    step s = .next { s with unk := true, pc := s.pc + 2 } := by
  have unknown : step s = unknownWord s := by simp [step, hs, hf, hd]
  exact unknown

theorem step_of_halt (hs : s.halt = true) : step s = .next s := by
  simp [step, hs, hold]

/-! ## `Execute`, case by case -/

theorem execute_of_halt (hs : s.halt = true) : execute rnd s = .next (s, .halted) := by
  simp [execute, hs, hold, Result.surface]

theorem execute_of_fetch_none (hs : s.halt = false) (hf : fetch s = none) :
    execute rnd s = .next (s.halted .outOfRangeAddress, .fault .outOfRangeAddress) := by
  simp [execute, hs, hf, raise, Result.surface]

theorem execute_of_unknown (hs : s.halt = false) (hf : fetch s = some w) (hd : decode w = none) :
    execute rnd s = .next ({ s with unk := true, pc := s.pc + 2 }, .unknown w) := by
  have unknown : execute rnd s = Result.surface (unknownWord s) fun _ => .unknown w := by simp [execute, hs, hf, hd]
  exact unknown

theorem execute_of_decode (hs : s.halt = false) (hf : fetch s = some w) (hd : decode w = some i)
    (hx : execWith rnd i s = .next t) : execute rnd s = .next (t, instrOutcome i s t) := by
  simp [execute, hs, hf, hd, hx, Result.surface]

/-- Settles O11: the step and `Execute` both do with an unknown word what R204 says. -/
theorem unknownWordSetsUnkAndAdvances : Obligations.UnknownWordSetsUnkAndAdvances := by
  intro s hs hpc hd
  have hf := fetch_eq_some.2 ⟨hpc, rfl⟩
  constructor
  · exact step_of_unknown hs hf hd
  · exact fun rnd => execute_of_unknown hs hf hd

/-- Settles O12: a step of a halted core is the state itself, so a run of any length is. -/
theorem haltedCoreDoesNothing : Obligations.HaltedCoreDoesNothing := by
  intro s hs
  refine ⟨fun n => ?_, fun rnd => execute_of_halt hs⟩
  induction n with
  | zero => rfl
  | succ n ih =>
    have stays : core.step s = .next s := step_of_halt hs
    simp [Host.Core.run, stays, ih]

/-- The four things that `Execute` can do. -/
theorem execute_cases (rnd : Byte) (s : State) :
    (s.halt = true ∧ execute rnd s = .next (s, .halted)) ∨
    (s.halt = false ∧ fetch s = none ∧
      execute rnd s = .next (s.halted .outOfRangeAddress, .fault .outOfRangeAddress)) ∨
    (s.halt = false ∧ ∃ w, fetch s = some w ∧ decode w = none ∧
      execute rnd s = .next ({ s with unk := true, pc := s.pc + 2 }, .unknown w)) ∨
    (s.halt = false ∧ ∃ w i, fetch s = some w ∧ decode w = some i ∧ ∃ t, execWith rnd i s = .next t ∧
      execute rnd s = .next (t, instrOutcome i s t)) := by
  obtain hs | hs := Bool.eq_false_or_eq_true s.halt
  · exact .inl ⟨hs, execute_of_halt hs⟩
  · cases hf : fetch s with
    | none => exact .inr (.inl ⟨hs, rfl, execute_of_fetch_none hs hf⟩)
    | some w =>
      cases hd : decode w with
      | none => exact .inr (.inr (.inl ⟨hs, w, rfl, hd, execute_of_unknown hs hf hd⟩))
      | some i =>
        obtain ⟨t, hx⟩ : ∃ t, execWith rnd i s = .next t := by
          obtain ⟨e, -, hx⟩ | ⟨t, hx, -⟩ := execWith_cases rnd i s
          · exact ⟨_, hx⟩
          · exact ⟨t, hx⟩
        exact .inr (.inr (.inr ⟨hs, w, i, rfl, hd, t, hx, execute_of_decode hs hf hd hx⟩))

/-- Settles O56: the step and `Execute` take the same one of four ways. -/
theorem stepIsExecuteWithTheFreeByte : Obligations.StepIsExecuteWithTheFreeByte := by
  intro s
  obtain ⟨hs, hx⟩ | ⟨hs, hf, hx⟩ | ⟨hs, w, hf, hd, hx⟩ | ⟨hs, w, i, hf, hd, t, hi, hx⟩ :=
    execute_cases (Config.randomByte s.draws) s
  · exact ⟨_, _, hx, step_of_halt hs⟩
  · exact ⟨_, _, hx, step_of_fetch_none hs hf⟩
  · exact ⟨_, _, hx, step_of_unknown hs hf hd⟩
  · exact ⟨_, _, hx, by rw [step_of_decode hs hf hd, exec_eq_execWith, hi]⟩

/-! ## Outcomes -/

theorem instrOutcome_halted (i : Instr) (s u : State) (e : ErrorKind) : instrOutcome i s (u.halted e) = .fault e := by
  cases e <;> rfl

theorem instrOutcome_waiting (x : RegIdx) (hk : s.keys = 0) (ht : t.halt = false) :
    instrOutcome (.waitKey x) s t = .waiting := by
  simp [instrOutcome, ht, keyWaitHolds, hk]

theorem instrOutcome_ok (hk : ∀ x, i = .waitKey x → s.keys ≠ 0) (ht : t.halt = false) :
    instrOutcome i s t = .ok := by
  cases i
  case waitKey x => simpa [instrOutcome, ht, keyWaitHolds] using hk x rfl
  all_goals simp [instrOutcome, ht]

/-- Settles O57: the outcome follows the way that `Execute` took, and for an instruction whether it raised, held or
completed. -/
theorem outcomeTellsWhatExecuteDid : Obligations.OutcomeTellsWhatExecuteDid := by
  intro s rnd
  obtain ⟨hs, hx⟩ | ⟨hs, hf, hx⟩ | ⟨hs, w, hf, hd, hx⟩ | ⟨hs, w, i, hf, hd, t, hi, hx⟩ := execute_cases rnd s
  · exact ⟨_, _, hx, hs, rfl⟩
  · exact ⟨_, _, hx, hs, rfl, .inl rfl⟩
  · exact ⟨_, _, hx, hs, hf, hd, rfl⟩
  obtain ⟨e, he, rfl⟩ | effect := execWith_eq_next hi
  · refine ⟨_, _, hx, ?_⟩
    rw [instrOutcome_halted]
    exact ⟨hs, rfl, he.kind⟩
  have ht : t.halt = false := effect.halt_eq.trans hs
  by_cases wait : ∃ x, i = .waitKey x ∧ s.keys = 0
  · obtain ⟨x, rfl, hk⟩ := wait
    refine ⟨_, _, hx, ?_⟩
    rw [instrOutcome_waiting x hk ht]
    exact ⟨hs, hk, effect.eq_of_waiting hk, w, x, hf, hd⟩
  · refine ⟨_, _, hx, ?_⟩
    rw [instrOutcome_ok (fun x hx hk => wait ⟨x, hx, hk⟩) ht]
    exact ⟨hs, ht, effect.err_eq, effect.unk_eq, w, i, hf, hd, hi⟩

theorem execute_waitKey_holds {x : RegIdx} (hs : s.halt = false) (hf : fetch s = some w)
    (hd : decode w = some (.waitKey x)) (hk : s.keys = 0) : execute rnd s = .next (s, .waiting) := by
  rw [execute_of_decode hs hf hd (exec_waitKey_iff.2 (.inl ⟨hk, rfl⟩)), instrOutcome_waiting x hk hs]

theorem execute_waitKey_ends {x : RegIdx} (hs : s.halt = false) (hf : fetch s = some w)
    (hd : decode w = some (.waitKey x)) (hk : s.keys ≠ 0) :
    execute rnd s = .next ((s.setReg x (lowestSet s.keys)).setPc (s.pc + 2), .ok) := by
  rw [execute_of_decode hs hf hd (exec_waitKey_iff.2 (.inr ⟨hk, rfl⟩)), instrOutcome_ok (fun _ _ => hk)]
  exact hs

/-- Settles O55: `RefreshInput` changes neither the fetch nor `HALT`, so the cycle runs the key wait with the given mask. -/
theorem cycleEndsTheKeyWait : Obligations.CycleEndsTheKeyWait := by
  intro s x rnd k hs hpc hd
  have hf : fetch (opRefreshInput k s) = some _ := fetch_eq_some.2 ⟨hpc, rfl⟩
  have running : (opRefreshInput k s).halt = false := hs
  constructor
  · rintro rfl
    exact execute_waitKey_holds running hf hd rfl
  · intro hk
    refine ⟨_, execute_waitKey_ends running hf hd hk, rfl, ?_, rfl⟩
    rw [State.reg_setPc, State.reg_setReg_same]
    exact (lowestSet_spec hk).1

end Sys2Proof.Execute
end

section
/-! PROOFS. Memory: what a store of consecutive bytes leaves (spec/20_memory.md), and the instructions and operations that
end in one. -/
namespace Sys2Proof.Stores
open Sys2Proof.Machine Sys2Proof.Claims

variable {s t : State} {base : Nat} {us : List Byte}

/-- Byte `j` of a store stands `j` above its base. -/
theorem byteAt_store_add (hm : Memory.wf s.mem = true) (hr : base + us.length ≤ 0x1000) {j : Nat} (hj : j < us.length) :
    (s.store base us).byteAt (base + j) = us.getD j 0 := by
  rw [State.byteAt_store _ hm hr, if_pos (by omega), Nat.add_sub_cancel_left]

theorem getElem?_eq_some_byteAt_store (hm : Memory.wf s.mem = true) (hr : base + us.length ≤ 0x1000) {j : Nat}
    (hj : j < us.length) : us[j]? = some ((s.store base us).byteAt (base + j)) := by
  rw [byteAt_store_add hm hr hj, List.getD_eq_getElem?_getD, List.getElem?_eq_getElem hj, Option.getD_some]

/-- A store changes no byte outside its range. -/
theorem sameMemoryOutside_store (hm : Memory.wf s.mem = true) (hr : base + us.length ≤ 0x1000) :
    SameMemoryOutside base us.length s (s.store base us) := by
  intro a ha
  rw [State.byteAt_store _ hm hr, if_neg (by omega)]

/-! ## `store-bcd` -/

theorem toNat_getD_bcdDigits (u : Byte) :
    ((bcdDigits u).getD 0 0).toNat = u.toNat / 100 ∧ ((bcdDigits u).getD 1 0).toNat = u.toNat / 10 % 10 ∧
      ((bcdDigits u).getD 2 0).toNat = u.toNat % 10 := by
  have := u.isLt
  refine ⟨?_, ?_, ?_⟩ <;> simp [bcdDigits] <;> omega

/-- Settles O36: the three digits are the three bytes of the store. -/
theorem storeBcdWritesThreeDigits : Obligations.StoreBcdWritesThreeDigits := by
  intro s x hm
  constructor
  · intro range
    have room : s.i.toNat + (bcdDigits (s.reg x)).length ≤ 0x1000 := by rw [length_bcdDigits]; omega
    obtain ⟨hundreds, tens, ones⟩ := toNat_getD_bcdDigits (s.reg x)
    have digit (j : Nat) (hj : j < 3) := byteAt_store_add hm room (j := j) hj
    refine ⟨_, exec_storeBcd_iff.2 (.inr ⟨range, rfl⟩), ?_, ?_, ?_, sameMemoryOutside_store hm room, rfl, rfl⟩
    · rw [← hundreds, ← digit 0 (by omega)]; rfl
    · rw [← tens, ← digit 1 (by omega)]; rfl
    · rw [← ones, ← digit 2 (by omega)]; rfl
  · exact fun range => exec_storeBcd_iff.2 (.inl ⟨range, rfl⟩)

/-! ## `store-registers` and `load-registers` -/

/-- The registers stored with the last one in range fit below 0x1000. -/
theorem room_regsUpTo {x : RegIdx} (range : s.i.toNat + x.toNat ≤ 0xFFF) :
    s.i.toNat + (regsUpTo s x).length ≤ 0x1000 := by
  rw [length_regsUpTo]
  omega

theorem byteAt_store_regsUpTo {x r : RegIdx} (hm : Memory.wf s.mem = true) (range : s.i.toNat + x.toNat ≤ 0xFFF)
    (hr : r.toNat ≤ x.toNat) : (s.store s.i.toNat (regsUpTo s x)).byteAt (s.i.toNat + r.toNat) = s.reg r := by
  rw [byteAt_store_add hm (room_regsUpTo range) (by rw [length_regsUpTo]; omega), getD_regsUpTo s x r hr]

/-- With its range in memory `store-registers` completes. -/
theorem storeRegisters_in_range {x : RegIdx} (range : s.i.toNat + x.toNat ≤ 0xFFF)
    (h : exec (.storeRegisters x) s = .next t) : t = (s.store s.i.toNat (regsUpTo s x)).setPc (s.pc + 2) := by
  obtain ⟨out, -⟩ | ⟨-, eq⟩ := exec_storeRegisters_iff.1 h
  · omega
  · exact eq

/-- Settles O37: byte `r` of the store is register `r`. -/
theorem storeRegistersWritesTheRange : Obligations.StoreRegistersWritesTheRange := by
  intro s x hm
  constructor
  · intro range
    refine ⟨_, exec_storeRegisters_iff.2 (.inr ⟨range, rfl⟩), ?inside, ?outside, ?pc, ?frame⟩
    case inside => exact fun r hr => byteAt_store_regsUpTo hm range hr
    case pc => rfl
    case frame => rfl
    case outside =>
      rw [← length_regsUpTo s x]
      exact sameMemoryOutside_store hm (room_regsUpTo range)
  · exact fun range => exec_storeRegisters_iff.2 (.inl ⟨range, rfl⟩)

/-- Writing all registers and then `PC` changes nothing else. -/
theorem onlyVAndPc_setRegs_setPc (s : State) (v : Vector Byte 16) (a : Word) : OnlyVAndPc s ((s.setRegs v).setPc a) :=
  ⟨rfl, fun _ => rfl⟩

/-- Settles O38: the block load reads the bytes that the range check has passed. -/
theorem loadRegistersReadsTheRange : Obligations.LoadRegistersReadsTheRange := by
  intro s x
  constructor
  · intro range
    exact ⟨_, exec_loadRegisters_iff.2 (.inr ⟨range, rfl⟩), fun r => reg_loadRegsUpTo s x r _, rfl,
      onlyVAndPc_setRegs_setPc s _ _⟩
  · exact fun range => exec_loadRegisters_iff.2 (.inl ⟨range, rfl⟩)

/-- Settles O39: the block load reads the bytes where the block store put the registers. -/
theorem loadRegistersRestoresWhatWasStored : Obligations.LoadRegistersRestoresWhatWasStored := by
  intro s t u x hm range h hmem hi
  obtain rfl := storeRegisters_in_range range h
  refine ⟨_, exec_loadRegisters_iff.2 (.inr ⟨by rwa [hi], rfl⟩), fun r => ?_⟩
  rw [State.reg_setPc, reg_loadRegsUpTo]
  split
  · rw [hi, State.byteAt_congr hmem]
    exact byteAt_store_regsUpTo hm range ‹_›
  · rfl

/-! ## A store and the next fetch (R63) -/

/-- Settles O15: the two bytes at the next `PC` are among those stored. -/
theorem storeIsSeenByTheNextFetch : Obligations.StoreIsSeenByTheNextFetch := by
  intro s t x r q hm range h hq hqx hpc
  obtain rfl := storeRegisters_in_range range h
  refine fetch_eq_some.2 ⟨by omega, ?_⟩
  have low : s.i.toNat + r.toNat + 1 = s.i.toNat + q.toNat := by omega
  rw [hpc, low, State.byteAt_setPc, State.byteAt_setPc, byteAt_store_regsUpTo hm range (by omega),
    byteAt_store_regsUpTo hm range hqx]

/-- A word stored at `PC` is the word fetched. -/
theorem fetch_store_wordBytes {w : Word} (hm : Memory.wf s.mem = true) (hpc : s.pc.toNat ≤ 0xFFE) :
    fetch (s.store s.pc.toNat (wordBytes w)) = some w := by
  have room : s.pc.toNat + (wordBytes w).length ≤ 0x1000 := Nat.add_le_add_right hpc 2
  have hi : (s.store s.pc.toNat (wordBytes w)).byteAt s.pc.toNat = w.extractLsb' 8 8 :=
    byteAt_store_add hm room (Nat.zero_lt_two)
  have lo : (s.store s.pc.toNat (wordBytes w)).byteAt (s.pc.toNat + 1) = w.extractLsb' 0 8 :=
    byteAt_store_add hm room (Nat.one_lt_two)
  refine fetch_eq_some.2 ⟨hpc, ?_⟩
  rw [State.store_pc, hi, lo, joinBytes_wordBytes]

/-- Placing a word stores it where a running core with its `PC` in range fetches it. -/
theorem placeFetchWord_eq_store (w : Word) (s : State) : ∃ s' : State, s'.mem = s.mem ∧ s'.halt = false ∧
    s'.pc.toNat ≤ 0xFFE ∧ placeFetchWord w s = s'.store s'.pc.toNat (wordBytes w) := by
  refine ⟨_, ?mem, ?halt, ?pc, rfl⟩
  case mem => split <;> split <;> rfl
  case halt => split <;> split <;> simp_all
  case pc =>
    split <;> split
    case isTrue.isTrue | isFalse.isTrue => exact (by decide : (0x200 : Word).toNat ≤ 0xFFE)
    case isTrue.isFalse low | isFalse.isFalse low => exact Nat.le_of_succ_le_succ (Nat.le_of_not_lt low)

/-- Settles O14: the fetch reads the word placed, and the decoder reads the instruction from it. -/
theorem placedWordIsTheNextInstruction : Obligations.PlacedWordIsTheNextInstruction := by
  intro s i hm
  have word : s.withFetchWord 16 (encode i).toNat = placeFetchWord (encode i) s := by
    rw [State.withFetchWord, Nat.mod_eq_of_lt (encode i).isLt, BitVec.ofNat_toNat, BitVec.setWidth_eq]
  rw [word]
  obtain ⟨s', mem, running, range, placed⟩ := placeFetchWord_eq_store (encode i) s
  rw [placed]
  exact Execute.step_of_decode running (fetch_store_wordBytes (mem ▸ hm) range)
    (Decoding.decodeOfEncodeIsTheInstruction i)

/-! ## `Reset`, `Load` and boot -/

/-- The bytes of the unspecified part (R36) are as many as there is room for. -/
theorem room_upper (u : Unspecified) : 0x050 + (u.upper.take (0x1000 - 0x050)).length ≤ 0x1000 := by
  rw [List.length_take]
  omega

theorem wf_resetMemory (u : Unspecified) : Memory.wf (resetMemory u) = true :=
  Memory.wf_writeBytes rfl (room_upper u)

theorem opReset_eq_store (u : Unspecified) : opReset u =
  { State.reset with fb := u.fb, stack := u.stack, keys := u.keys, draws := u.draws }.store 0x050
    (u.upper.take (0x1000 - 0x050)) := rfl

theorem length_font : font.length = 80 := rfl

/-- A memory that lists nothing reads as the font below 0x050. -/
theorem font_reset (s : State) (h : s.mem = []) {j : Nat} (hj : j < 80) : font[j]? = some (s.byteAt j) := by
  rw [State.byteAt, h, Memory.read, Memory.resetByte, List.getD_eq_getElem font 0 hj]
  exact List.getElem?_eq_getElem hj

theorem font_opReset (u : Unspecified) {j : Nat} (hj : j < 80) : font[j]? = some ((opReset u).byteAt j) := by
  rw [opReset_eq_store, State.byteAt_store _ rfl (room_upper u), if_neg (by omega)]
  exact font_reset _ rfl hj

theorem reg_opReset (u : Unspecified) (r : RegIdx) : (opReset u).reg r = 0 := by
  simp [State.reg, opReset, State.reset]

/-- Settles O50: a store from 0x050 on leaves the font below it and reads back above it. -/
theorem resetLeavesTheStatedValues : Obligations.ResetLeavesTheStatedValues := by
  intro u
  refine ⟨reg_opReset u, rfl, rfl, rfl, rfl, rfl, rfl, fun j hj => font_opReset u hj, length_font,
    fun k hk top => ?upper, rfl, rfl, rfl⟩
  case upper =>
    have taken : k < 0x1000 - 0x050 := by omega
    rw [opReset_eq_store, ← getElem?_eq_some_byteAt_store rfl (room_upper u), List.getElem?_take_of_lt taken]
    rw [List.length_take]
    omega

theorem opLoad_of_le {image : List Byte} (h : image.length ≤ 3584) : opLoad image s = (s.store 0x200 image, .ok) :=
  if_neg (by simp; omega)

theorem opLoad_of_gt {image : List Byte} (h : 3584 < image.length) :
    opLoad image s = (s.halted .loadTooLarge, .tooLarge) :=
  if_pos (by simp; omega)

/-- Settles O51: an image that fits is one store. -/
theorem loadPlacesTheImageOrHalts : Obligations.LoadPlacesTheImageOrHalts := by
  intro image s hm
  constructor
  · intro fits
    have room : 0x200 + image.length ≤ 0x1000 := by omega
    exact ⟨_, opLoad_of_le fits, fun j hj => getElem?_eq_some_byteAt_store hm room hj,
      sameMemoryOutside_store hm room, rfl⟩
  · exact opLoad_of_gt

theorem boot_of_le {u : Unspecified} {image : List Byte} (h : image.length ≤ 3584) :
    boot u image = some ((opReset u).store 0x200 image) := by
  rw [boot, opLoad_of_le h]

theorem boot_of_gt {u : Unspecified} {image : List Byte} (h : 3584 < image.length) : boot u image = none := by
  rw [boot, opLoad_of_gt h]

/-- Settles O52: boot is the reset state with the image stored, and the font lies below the image. -/
theorem bootStartsTheImageAtItsFirstByte : Obligations.BootStartsTheImageAtItsFirstByte := by
  intro u image
  by_cases h : image.length ≤ 3584
  · rw [boot_of_le h]
    refine ⟨by simp [h], ?_⟩
    rintro _ ⟨⟩
    have room : 0x200 + image.length ≤ 0x1000 := by omega
    have hm := wf_resetMemory u
    refine ⟨rfl, rfl, rfl, rfl, reg_opReset u, rfl, rfl, rfl, rfl, ?image, ?font⟩
    case image => exact fun j hj => getElem?_eq_some_byteAt_store hm room hj
    case font =>
      intro j hj
      rw [sameMemoryOutside_store hm room j (by omega)]
      exact font_opReset u hj
  · rw [boot_of_gt (by omega)]
    exact ⟨by simp; omega, nofun⟩

end Sys2Proof.Stores
end

section
/-! PROOFS. The invariant (spec/10_state.md section 3, spec/40_control_flow.md section 4, spec/60_exceptions.md section 2): it
holds after `Reset`, and every operation of the host keeps it. -/
namespace Sys2Proof.Invariant
open Sys2Proof.Machine Sys2Proof.Safety Sys2Proof.Claims Sys2Proof.Effects Sys2Proof.Execute

variable {s t : State} {i : Instr} {rnd : Byte} {o : ExecOutcome}

/-- Settles O16: only memory is not a literal, and it is a store into the empty memory. -/
theorem resetMeetsTheInvariant : Obligations.ResetMeetsTheInvariant := by
  have reset (u : Unspecified) : Inv (opReset u) :=
    ⟨Stores.wf_resetMemory u, rfl, (by decide : (0x200 : Word).toNat ≤ 0x1002), fun _ hk => absurd hk (Nat.not_lt_zero _)⟩
  exact ⟨reset, reset .zero⟩

/-! ## An effect keeps the invariant -/

theorem wf_of_effect (h : Effect s i t) (hm : Memory.wf s.mem = true) : Memory.wf t.mem = true := by
  cases h with
  | store _ _ room => exact Memory.wf_writeBytes hm room
  | _ => exact hm

theorem errorStatusLegal_of_effect (h : Effect s i t) (hs : ErrorStatusLegal s) : ErrorStatusLegal t := by
  rwa [ErrorStatusLegal, h.halt_eq, h.err_eq]

/-- Every advance or redirection from a `PC` that was fetched from stays at most 0x1002 (R24). -/
theorem pc_of_effect (h : Effect s i t) (hpc : s.pc.toNat ≤ 0xFFE) : t.pc.toNat ≤ 0x1002 := by
  have advance : (s.pc + 2).toNat ≤ 0x1002 := by bv_omega
  have addr (a : Addr) : (zextAddr a).toNat ≤ 0x1002 := by
    have := a.isLt
    rw [toNat_zextAddr]
    omega
  cases h with
  | ret _ range => exact range.trans (by decide)
  | jump nnn | call nnn => exact addr nnn
  | jumpOffset _ range => exact (AllInstructions.toNat_ofNat_of_le range).trans_le (range.trans (by decide))
  | skip _ c =>
    cases c
    · exact advance
    · show (s.pc + 4).toNat ≤ 0x1002
      bv_omega
  | hold => exact hpc.trans (by decide)
  | _ => exact advance

/-- A call pushes the address after it, which is at most 0x1000 (R102), and a return only drops an entry. -/
theorem returnAddresses_of_effect (h : Effect s i t) (hpc : s.pc.toNat ≤ 0xFFE) (hr : ReturnAddressesInRange s) :
    ReturnAddressesInRange t := by
  cases h with
  | ret pos =>
    intro k hk
    exact hr k (Nat.lt_of_lt_of_le hk (Nat.sub_le _ _))
  | call nnn room =>
    intro k hk
    by_cases top : s.sp.val = k.val
    · have pushed : (s.stack.set s.sp.val (s.pc + 2))[k] = s.pc + 2 := by simp [top]
      show (s.stack.set s.sp.val (s.pc + 2))[k].toNat ≤ 0x1000
      rw [pushed]
      bv_omega
    · have kept : (s.stack.set s.sp.val (s.pc + 2))[k] = s.stack[k] := by simp [top]
      show (s.stack.set s.sp.val (s.pc + 2))[k].toNat ≤ 0x1000
      rw [kept]
      have : k.val < s.sp.val + 1 := hk
      exact hr k (by omega)
  | _ => exact hr

theorem inv_of_effect (h : Effect s i t) (hpc : s.pc.toNat ≤ 0xFFE) (hi : Inv s) : Inv t := by
  obtain ⟨hm, hs, -, hr⟩ := hi
  exact ⟨wf_of_effect h hm, errorStatusLegal_of_effect h hs, pc_of_effect h hpc, returnAddresses_of_effect h hpc hr⟩

/-! ## Every operation keeps the invariant -/

/-- A fatal error keeps the invariant: it changes the error status alone, to a legal one. -/
theorem inv_halted {e : ErrorKind} (he : e ≠ .unknownOpcode) (hi : Inv s) : Inv (s.halted e) := by
  obtain ⟨hm, -, hpc, hr⟩ := hi
  refine ⟨hm, ?_, hpc, hr⟩
  cases e
  case unknownOpcode => exact absurd rfl he
  all_goals simp [ErrorStatusLegal, ErrorKind.code]

theorem inv_execute (hi : Inv s) (h : execute rnd s = .next (t, o)) : Inv t := by
  obtain ⟨hs, hx⟩ | ⟨hs, hf, hx⟩ | ⟨hs, w, hf, hd, hx⟩ | ⟨hs, w, i, hf, hd, u, hu, hx⟩ := execute_cases rnd s <;>
    cases hx.symm.trans h
  · exact hi
  · exact inv_halted (by decide) hi
  · obtain ⟨hm, hl, -, hr⟩ := hi
    have hpc := (fetch_eq_some.1 hf).1
    exact ⟨hm, hl, by bv_omega, hr⟩
  · obtain ⟨e, he, rfl⟩ | effect := execWith_eq_next hu
    · exact inv_halted (by obtain rfl | rfl | rfl := he.kind <;> decide) hi
    · exact inv_of_effect effect (fetch_eq_some.1 hf).1 hi

/-- Settles O17: a step is `Execute` with the free byte. -/
theorem stepKeepsTheInvariant : Obligations.StepKeepsTheInvariant := by
  intro s t hi h
  obtain ⟨u, o, hx, hu⟩ := stepIsExecuteWithTheFreeByte s
  cases hu.symm.trans h
  exact inv_execute hi hx

theorem inv_opLoad (image : List Byte) (hi : Inv s) : Inv (opLoad image s).1 := by
  by_cases fits : image.length ≤ 3584
  · rw [Stores.opLoad_of_le fits]
    obtain ⟨hm, hl, hpc, hr⟩ := hi
    exact ⟨Memory.wf_writeBytes hm (by omega), hl, hpc, hr⟩
  · rw [Stores.opLoad_of_gt (by omega)]
    exact inv_halted (by decide) hi

/-- Every operation answers and keeps the invariant. -/
theorem apply_inv (op : Op) (hi : Inv s) : ∃ t a, apply op s = .next (t, a) ∧ Inv t := by
  cases op with
  | reset u => exact ⟨_, _, rfl, resetMeetsTheInvariant.1 u⟩
  | load image => exact ⟨_, _, rfl, inv_opLoad image hi⟩
  | refreshInput k => exact ⟨_, _, rfl, hi⟩
  | execute rnd =>
    obtain ⟨t, o, hx, -⟩ := outcomeTellsWhatExecuteDid s rnd
    exact ⟨t, .executed o, by rw [apply, hx], inv_execute hi hx⟩
  | tick => exact ⟨_, _, rfl, hi⟩

/-- Settles O18: by induction on the schedule. -/
theorem everyScheduleKeepsTheInvariant : Obligations.EveryScheduleKeepsTheInvariant := by
  intro ops
  induction ops with
  | nil => exact fun s hi => ⟨s, [], rfl, hi⟩
  | cons op ops ih =>
    intro s hi
    obtain ⟨t, a, ht, hit⟩ := apply_inv op hi
    obtain ⟨u, answers, hu, hiu⟩ := ih t hit
    exact ⟨u, a :: answers, by simp [runOps, ht, hu], hiu⟩

/-! ## `HALT` and `UNK` -/

/-- `Execute` clears neither `HALT` nor `UNK`. -/
theorem execute_keeps_status (h : execute rnd s = .next (t, o)) :
    (s.halt = true → t.halt = true) ∧ (s.unk = true → t.unk = true) := by
  obtain ⟨hs, hx⟩ | ⟨hs, hf, hx⟩ | ⟨hs, w, hf, hd, hx⟩ | ⟨hs, w, i, hf, hd, u, hu, hx⟩ := execute_cases rnd s <;>
    cases hx.symm.trans h
  · exact ⟨id, id⟩
  · exact ⟨fun _ => rfl, id⟩
  · exact ⟨id, fun _ => rfl⟩
  · obtain ⟨e, -, rfl⟩ | effect := execWith_eq_next hu
    · exact ⟨fun _ => rfl, id⟩
    · exact ⟨effect.halt_eq.trans, effect.unk_eq.trans⟩

theorem opLoad_keeps_status (image : List Byte) (s : State) :
    (s.halt = true → (opLoad image s).1.halt = true) ∧ (s.unk = true → (opLoad image s).1.unk = true) := by
  unfold opLoad
  split
  · exact ⟨fun _ => rfl, id⟩
  · exact ⟨id, id⟩

/-- Settles O58: operation by operation. -/
theorem onlyResetClearsHaltAndUnk : Obligations.OnlyResetClearsHaltAndUnk := by
  intro op s t a hop h
  cases op with
  | reset u => exact absurd rfl (hop u)
  | load image =>
    cases h
    obtain ⟨halt, unk⟩ := opLoad_keeps_status image s
    refine ⟨halt, unk, nofun, nofun, ?_⟩
    rintro _ ⟨⟩ fits
    rw [Stores.opLoad_of_le fits]
    rfl
  | refreshInput k =>
    cases h
    refine ⟨id, id, ?_, nofun, nofun⟩
    rintro _ ⟨⟩
    rfl
  | execute rnd =>
    obtain ⟨u, o, hx, -⟩ := outcomeTellsWhatExecuteDid s rnd
    rw [apply, hx] at h
    cases h
    obtain ⟨halt, unk⟩ := execute_keeps_status hx
    exact ⟨halt, unk, nofun, nofun, nofun⟩
  | tick =>
    cases h
    obtain ⟨delay, sound, frame⟩ := Exceptions.tickCountsBothTimersDown s
    exact ⟨id, id, nofun, fun _ => ⟨delay, sound, frame⟩, nofun⟩

end Sys2Proof.Invariant
end

section
/-! PROOFS. Jumps, calls and returns (spec/40_control_flow.md sections 2 to 5). A call with room and a return with an entry in
range are said once, as the state each leaves. -/
namespace Sys2Proof.ControlFlow
open Sys2Proof.Machine Sys2Proof.Claims

variable {s t : State} {nnn : Addr}

/-- Settles O25: both are the model's laws, and the target in range fits 16 bits. -/
theorem jumpsSetPcToTheirTarget : Obligations.JumpsSetPcToTheirTarget := by
  intro s nnn
  refine ⟨?jump, fun range => ?offset, fun range => exec_jumpOffset_iff.2 (.inl ⟨range, rfl⟩)⟩
  case jump => exact ⟨_, exec_jump_iff.2 rfl, toNat_zextAddr nnn, rfl, fun _ => rfl⟩
  case offset =>
    exact ⟨_, exec_jumpOffset_iff.2 (.inr ⟨range, rfl⟩), AllInstructions.toNat_ofNat_of_le range, rfl, fun _ => rfl⟩

/-- The state that a call with room on the stack leaves (R102). -/
def afterCall (s : State) (nnn : Addr) (room : s.sp.val < 16) : State :=
  { s with stack := s.stack.set s.sp.val (s.pc + 2), sp := ⟨s.sp.val + 1, by omega⟩ }.setPc (zextAddr nnn)

theorem exec_call_of_room (room : s.sp.val < 16) : exec (.call nnn) s = .next (afterCall s nnn room) :=
  exec_call_iff.2 (.inr ⟨room, rfl⟩)

/-- The entry that a call pushes is the address after it, and every other entry is kept. -/
theorem getElem_stack_afterCall (room : s.sp.val < 16) (k : Fin 16) :
    (afterCall s nnn room).stack[k] = if k.val = s.sp.val then s.pc + 2 else s.stack[k] :=
  (Vector.getElem_set room k.isLt).trans (if_congr eq_comm rfl rfl)

/-- Settles O26: the state is `afterCall`. -/
theorem callPushesTheReturnAddress : Obligations.CallPushesTheReturnAddress := fun _ nnn room =>
  ⟨_, exec_call_of_room room, toNat_zextAddr nnn, rfl, getElem_stack_afterCall room, rfl, fun _ => rfl⟩

/-- A call on a full stack overflows (R202). -/
theorem exec_call_of_full (full : s.sp.val = 16) : exec (.call nnn) s = .next { s with halt := true, err := 2 } :=
  exec_call_iff.2 (.inl ⟨full, rfl⟩)

/-- Nested calls for which there is room complete, and each takes one entry. -/
theorem runCalls_of_room (targets : List Addr) : ∀ s : State, s.sp.val + targets.length ≤ 16 →
    ∃ t, runCalls targets s = .next t ∧ t.sp.val = s.sp.val + targets.length ∧ t.halt = s.halt := by
  induction targets with
  | nil => exact fun s _ => ⟨s, rfl, rfl, rfl⟩
  | cons nnn targets ih =>
    intro s room
    rw [List.length_cons] at room
    have first : s.sp.val < 16 := by omega
    have sp : (afterCall s nnn first).sp.val = s.sp.val + 1 := rfl
    obtain ⟨t, run, depth, halt⟩ := ih (afterCall s nnn first) (by omega)
    refine ⟨t, ?_, ?_, halt⟩
    · rw [runCalls, exec_call_of_room first]
      exact run
    · rw [depth, sp, List.length_cons]
      omega

/-- Settles O21: sixteen calls fill the stack, and a call on a full stack overflows. -/
theorem seventeenthNestedCallOverflows : Obligations.SeventeenthNestedCallOverflows := by
  refine ⟨fun _ _ full => exec_call_of_full full, ?_⟩
  intro targets nnn s length empty
  obtain ⟨t, run, depth, halt⟩ := runCalls_of_room targets s (by omega)
  have full : t.sp.val = 16 := by omega
  exact ⟨t, run, full, halt, exec_call_of_full full⟩

/-- A return to an entry in range (R100). -/
theorem exec_ret_of_le (pos : 0 < s.sp.val) (range : s.stack[s.sp.val - 1].toNat ≤ 0xFFF) :
    exec .ret s = .next ({ s with sp := ⟨s.sp.val - 1, by omega⟩ }.setPc s.stack[s.sp.val - 1]) :=
  exec_ret_iff.2 (.inr ⟨pos, .inr ⟨range, rfl⟩⟩)

/-- A return to an entry above 0xFFF raises (R201). -/
theorem exec_ret_of_gt (pos : 0 < s.sp.val) (range : 0xFFF < s.stack[s.sp.val - 1].toNat) :
    exec .ret s = .next { s with halt := true, err := 1 } :=
  exec_ret_iff.2 (.inr ⟨pos, .inl ⟨range, rfl⟩⟩)

/-- Settles O27: the model's law for `return` on a stack that is not empty. -/
theorem returnPopsIntoPc : Obligations.ReturnPopsIntoPc := by
  intro s top pos get
  obtain ⟨_, rfl⟩ := Vector.getElem?_eq_some_iff.1 get
  refine ⟨fun range => ?_, exec_ret_of_gt pos⟩
  exact ⟨_, exec_ret_of_le pos range, rfl, Nat.sub_add_cancel pos, rfl, fun _ => rfl⟩

/-- Settles O28: the entry on top after the call is the address after it, and the return checks its range. -/
theorem returnComesBackAfterTheCall : Obligations.ReturnComesBackAfterTheCall := by
  intro s t nnn room hpc h
  cases (exec_call_of_room room).symm.trans h
  have pos : 0 < (afterCall s nnn room).sp.val := Nat.succ_pos _
  have top : (afterCall s nnn room).stack[(afterCall s nnn room).sp.val - 1] = s.pc + 2 :=
    (getElem_stack_afterCall room ⟨s.sp.val, room⟩).trans (if_pos rfl)
  have next : (s.pc + 2).toNat = s.pc.toNat + 2 := by bv_omega
  have value : (afterCall s nnn room).stack[(afterCall s nnn room).sp.val - 1].toNat = s.pc.toNat + 2 := by rw [top, next]
  constructor
  · intro low
    refine ⟨_, exec_ret_of_le pos (value.trans_le (by omega)), value, rfl, fun k hk => ?_, rfl, fun _ => rfl⟩
    exact (getElem_stack_afterCall (nnn := nnn) room k).trans (if_neg (Nat.ne_of_lt hk))
  · exact fun edge => exec_ret_of_gt pos (Nat.lt_of_lt_of_eq (by omega) value.symm)

end Sys2Proof.ControlFlow
end

section
/-! PROOFS. Arithmetic, logic, shifts and random (spec/41_alu.md sections 3 and 4). -/
namespace Sys2Proof.Alu
open Sys2Proof.Machine Sys2Proof.Claims

/-- Writing `V[x]` and then `PC` keeps every other register. -/
theorem reg_setReg_setPc_of_ne (s : State) {x r : RegIdx} (u : Byte) (a : Word) (hr : r ≠ x) :
    ((s.setReg x u).setPc a).reg r = s.reg r := (onlyReg_setReg_setPc s x u a r).trans (if_neg hr)

/-- The effect of an instruction that writes one register bit by bit. -/
theorem bitwise_setReg_setPc (s : State) (x : RegIdx) {u : Byte} {f : Nat → Bool} (hu : ∀ k, u.getLsbD k = f k) :
    (∀ k, (((s.setReg x u).setPc (s.pc + 2)).reg x).getLsbD k = f k) ∧
      (∀ r, r ≠ x → ((s.setReg x u).setPc (s.pc + 2)).reg r = s.reg r) ∧
      ((s.setReg x u).setPc (s.pc + 2)).pc = s.pc + 2 ∧ OnlyVAndPc s ((s.setReg x u).setPc (s.pc + 2)) := by
  refine ⟨fun k => ?_, fun r hr => reg_setReg_setPc_of_ne s u _ hr, rfl, onlyVAndPc_setReg_setPc ..⟩
  rw [State.reg_setPc, State.reg_setReg_same, hu]

/-- Settles O30: the bits of the three operations are the library's, and VF is a register like the others. -/
theorem copyAndLogicOperationsActBitByBit : Obligations.CopyAndLogicOperationsActBitByBit := by
  intro s x y
  refine ⟨?assign, ?or, ?and, ?xor⟩
  case assign =>
    exact ⟨_, exec_assignReg_iff.2 rfl, onlyReg_setReg_setPc s x _ _, rfl, onlyVAndPc_setReg_setPc ..⟩
  case or => exact ⟨_, exec_orReg_iff.2 rfl, bitwise_setReg_setPc s x fun _ => BitVec.getLsbD_or⟩
  case and => exact ⟨_, exec_andReg_iff.2 rfl, bitwise_setReg_setPc s x fun _ => BitVec.getLsbD_and⟩
  case xor => exact ⟨_, exec_xorReg_iff.2 rfl, bitwise_setReg_setPc s x fun _ => BitVec.getLsbD_xor⟩

/-! ## Instructions with a flag -/

theorem toNat_diffByte (a b : Byte) : (diffByte a b).toNat = (a.toNat + 256 - b.toNat) % 256 := by
  rw [diffByte, BitVec.toNat_ofNat, Nat.mod_mod]

theorem toNat_shrByte (u : Byte) : (shrByte u).toNat = u.toNat / 2 := by
  rw [shrByte, BitVec.toNat_ushiftRight, Nat.shiftRight_one]

theorem toNat_shlByte (u : Byte) : (shlByte u).toNat = u.toNat * 2 % 256 := by
  rw [shlByte, BitVec.toNat_ofNat, Nat.mod_mod]

theorem shrFlag_iff (u : Byte) : shrFlag u = true ↔ u.toNat % 2 = 1 := by revert u; decide

theorem shlFlag_iff (u : Byte) : shlFlag u = true ↔ 128 ≤ u.toNat := by revert u; decide

/-- `SHIFT_USES_VY` is false: the operand of a shift is `V[x]` (R134). -/
theorem shiftOperand_eq (s : State) (x y : RegIdx) : shiftOperand s x y = s.reg x := rfl

/-- The state that a flag-setting instruction leaves: the result first and the flag last (R133). -/
theorem resultAndFlag_setReg_setReg (s : State) (x : RegIdx) {u : Byte} {c : Bool} {n : Nat} {flag : Prop}
    [Decidable flag] (hu : u.toNat = n) (hc : c = true ↔ flag) :
    let t := ((s.setReg x u).setReg vf (flagByte c)).setPc (s.pc + 2)
    ResultAndFlag x n flag s t ∧ t.pc = s.pc + 2 ∧ OnlyVAndPc s t := by
  refine ⟨⟨?flag, fun (hx : x ≠ vf) => ?result, fun r hrx (hrf : r ≠ vf) => ?others⟩, rfl, rfl, fun _ => rfl⟩
  case flag =>
    refine (State.reg_setReg_same (s.setReg x u) vf (flagByte c)).trans ?_
    simp only [flagByte, hc]
  case result => rw [State.reg_setPc, State.reg_setReg, if_neg hx, State.reg_setReg_same, hu]
  case others => rw [State.reg_setPc, State.reg_setReg, if_neg hrf, State.reg_setReg, if_neg hrx]

/-- Settles O31: the result byte is the number modulo 256, the flag the comparison, and the flag is written last. -/
theorem addAndSubtractSetResultAndFlag : Obligations.AddAndSubtractSetResultAndFlag := by
  intro s x y
  refine ⟨?add, ?sub, ?subn⟩
  case add =>
    exact ⟨_, exec_addReg_iff.2 rfl, resultAndFlag_setReg_setReg s x (toNat_sumByte _ _) decide_eq_true_iff⟩
  case sub =>
    exact ⟨_, exec_subReg_iff.2 rfl, resultAndFlag_setReg_setReg s x (toNat_diffByte _ _) decide_eq_true_iff⟩
  case subn =>
    exact ⟨_, exec_subnReg_iff.2 rfl, resultAndFlag_setReg_setReg s x (toNat_diffByte _ _) decide_eq_true_iff⟩

/-- Settles O32: the operand is `V[x]`, and the flag is its bit 0 or bit 7. -/
theorem shiftsSetResultAndShiftedOutBit : Obligations.ShiftsSetResultAndShiftedOutBit := by
  intro s x y
  constructor
  · exact ⟨_, exec_shrReg_iff.2 rfl, resultAndFlag_setReg_setReg s x (toNat_shrByte _) (shrFlag_iff _)⟩
  · exact ⟨_, exec_shlReg_iff.2 rfl, resultAndFlag_setReg_setReg s x (toNat_shlByte _) (shlFlag_iff _)⟩

/-! ## `random` -/

/-- `random` writes one register, whatever the count of draws. -/
theorem onlyReg_random (s : State) (x : RegIdx) (u : Byte) (d : Nat) (a : Word) :
    OnlyReg x u s (({ s with draws := d }.setReg x u).setPc a) := fun r => State.reg_setReg { s with draws := d } x r u

/-- Settles O33: the byte written is the drawn byte AND `nn`, for a given byte and for the free one. -/
theorem randomMasksTheDrawnByte : Obligations.RandomMasksTheDrawnByte := by
  intro s x nn
  constructor
  · exact fun rnd => ⟨_, randomWith_iff.2 rfl, onlyReg_random s x _ _ _, rfl, rfl, fun _ => rfl⟩
  · have masked := onlyReg_random s x (Config.randomByte s.draws &&& nn) (s.draws + 1) (s.pc + 2)
    refine ⟨_, exec_random_iff.2 rfl, ⟨_, masked⟩, fun k hk => ?_, rfl, rfl, fun _ => rfl⟩
    rw [masked x, if_pos rfl, BitVec.getLsbD_and, hk, Bool.and_false]

end Sys2Proof.Alu
end

section
/-! PROOFS. `add-to-index` (spec/42_index_memory.md section 2). -/
namespace Sys2Proof.IndexMemory
open Sys2Proof.Machine Sys2Proof.Claims

/-- Settles O35: the index written is the sum reduced to 16 bits. -/
theorem addToIndexWrapsAtSixteenBits : Obligations.AddToIndexWrapsAtSixteenBits := by
  intro s x
  refine ⟨_, exec_addToIndex_iff.2 rfl, ?_, rfl, onlyIAndPc_setI_setPc ..⟩
  exact (BitVec.toNat_ofNat ..).trans (Nat.mod_mod _ _)

end Sys2Proof.IndexMemory
end

section
/-! PROOFS. The key wait and the run of the timers (spec/44_input_timers.md section 3, spec/60_exceptions.md section 4). -/
namespace Sys2Proof.InputTimers
open Sys2Proof.Machine Sys2Proof.Claims

/-- Settles O43: the key written is the lowest one set. -/
theorem waitKeyHoldsThenReportsTheLowestKey : Obligations.WaitKeyHoldsThenReportsTheLowestKey := by
  intro s x
  refine ⟨fun none => exec_waitKey_iff.2 (.inl ⟨none, rfl⟩), fun down => ?_⟩
  obtain ⟨set, below⟩ := lowestSet_spec down
  have value : ((s.setReg x (lowestSet s.keys)).setPc (s.pc + 2)).reg x = lowestSet s.keys := s.reg_setReg_same x _
  refine ⟨_, exec_waitKey_iff.2 (.inr ⟨down, rfl⟩), ?_, ?_, fun r hr => Alu.reg_setReg_setPc_of_ne s _ _ hr, rfl,
    Alu.onlyVAndPc_setReg_setPc ..⟩
  · rw [value]; exact set
  · rw [value]; exact below

/-- Ticks count each timer down and change nothing else (R210). -/
theorem ticks_spec (n : Nat) : ∀ s : State, (ticks n s).dt.toNat = s.dt.toNat - n ∧
    (ticks n s).st.toNat = s.st.toNat - n ∧ ticks n s = { s with dt := (ticks n s).dt, st := (ticks n s).st } := by
  induction n with
  | zero => exact fun s => ⟨rfl, rfl, rfl⟩
  | succ n ih =>
    intro s
    obtain ⟨delay, sound, frame⟩ := ih (opTick s)
    refine ⟨?_, ?_, frame⟩
    · rw [ticks, delay, Exceptions.dt_opTick, toNat_countDown]
      omega
    · rw [ticks, sound, Exceptions.st_opTick, toNat_countDown]
      omega

/-- Settles O54: the sound is on while `ST` has not run out. -/
theorem ticksRunTheTimersOut : Obligations.TicksRunTheTimersOut := by
  intro n s
  obtain ⟨delay, sound, frame⟩ := ticks_spec n s
  refine ⟨delay, sound, ?_, frame⟩
  rw [soundOn_iff, ← BitVec.toNat_ne_iff_ne, sound]
  show s.st.toNat - n ≠ 0 ↔ n < s.st.toNat
  omega

end Sys2Proof.InputTimers
end

section
/-! PROOFS. `draw-sprite` (spec/43_display.md section 3). The statements say which pixels a sprite covers by its bytes and
bits; the model draws rows of pixels. The two agree pixel by pixel, and the laws of the rows give the rest. -/
namespace Sys2Proof.Display
open Sys2Proof.Machine Sys2Proof.Claims

variable {s t : State} {x y : RegIdx} {n : Nibble} {px py : Nat}

/-- Byte `r` of the sprite that is read. -/
theorem getD_readBytes {m : List Host.Cell} {base k r : Nat} (hr : r < k) :
    (Memory.readBytes m base k).getD r 0 = Memory.read m (base + r) := by
  rw [List.getD_eq_getElem?_getD, Memory.getElem_readBytes, if_pos hr, Option.getD_some]

/-- A sprite covers a pixel of the screen exactly when the row drawn at the pixel's screen row has it. -/
theorem spriteCovers_iff (hx : px < 64) : spriteCovers x y n s px py ↔
    ∃ r, r < (Memory.readBytes s.mem s.i.toNat n.toNat).length ∧ py = (s.reg y).toNat + r ∧
      (spriteRow (s.reg x).toNat ((Memory.readBytes s.mem s.i.toNat n.toNat).getD r 0)).getLsbD px = true := by
  simp only [Memory.length_readBytes]
  constructor
  · rintro ⟨r, c, hr, hc, rfl, rfl, bit⟩
    refine ⟨r, hr, rfl, ?_⟩
    rw [getD_readBytes hr, getLsbD_spriteRow _ _ _ hx, Nat.add_sub_cancel_left]
    exact Bool.and_eq_true_iff.2 ⟨decide_eq_true (by omega), bit⟩
  · rintro ⟨r, hr, rfl, bit⟩
    rw [getD_readBytes hr, getLsbD_spriteRow _ _ _ hx] at bit
    simp only [Bool.and_eq_true, decide_eq_true_eq] at bit
    obtain ⟨⟨low, high⟩, bit⟩ := bit
    exact ⟨r, px - (s.reg x).toNat, hr, by omega, by omega, rfl, bit⟩

/-- The state that a draw with its bytes in range leaves. -/
def afterDraw (x y : RegIdx) (n : Nibble) (s : State) : State :=
  ({ s with fb := (spriteDrawn x y n s).1 }.setReg vf (flagByte (spriteDrawn x y n s).2)).setPc (s.pc + 2)

theorem exec_drawSprite_of_inRange (h : spriteInRange n s) : exec (.drawSprite x y n) s = .next (afterDraw x y n s) :=
  exec_drawSprite_iff.2 (.inr ⟨h, rfl⟩)

theorem pixel_afterDraw_ne_iff (hx : px < 64) (hy : py < 32) :
    (afterDraw x y n s).fb.pixel px py ≠ s.fb.pixel px py ↔ spriteCovers x y n s px py :=
  (pixel_drawRows_ne_iff _ s.fb _ _ hx hy).trans (spriteCovers_iff hx).symm

/-- The sprite covers a pixel that is on. -/
def Collides (x y : RegIdx) (n : Nibble) (s : State) : Prop :=
  ∃ px py, px < 64 ∧ py < 32 ∧ spriteCovers x y n s px py ∧ s.fb.pixel px py = true

theorem spriteDrawn_collides : (spriteDrawn x y n s).2 = true ↔ Collides x y n s := by
  refine (drawRows_collides _ s.fb _ _).trans (exists_congr fun px => exists_congr fun py => ?_)
  constructor
  · rintro ⟨hx, hy, covers, on⟩
    exact ⟨hx, hy, (spriteCovers_iff hx).2 covers, on⟩
  · rintro ⟨hx, hy, covers, on⟩
    exact ⟨hx, hy, (spriteCovers_iff hx).1 covers, on⟩

theorem reg_afterDraw_vf : (afterDraw x y n s).reg 15 = flagByte (spriteDrawn x y n s).2 := State.reg_setReg_same ..

theorem reg_afterDraw_of_ne {r : RegIdx} (hr : r ≠ 15) : (afterDraw x y n s).reg r = s.reg r :=
  (State.reg_setReg ..).trans (if_neg hr)

/-- VF after a draw is the collision. -/
theorem reg_afterDraw_vf_cases :
    ((afterDraw x y n s).reg 15 = 1 ∧ Collides x y n s) ∨ ((afterDraw x y n s).reg 15 = 0 ∧ ¬Collides x y n s) := by
  rw [reg_afterDraw_vf, ← spriteDrawn_collides]
  cases (spriteDrawn x y n s).2
  · exact .inr ⟨rfl, by simp⟩
  · exact .inl ⟨rfl, rfl⟩

theorem reg_afterDraw_vf_eq_one_iff : (afterDraw x y n s).reg 15 = 1 ↔ Collides x y n s := by
  rw [reg_afterDraw_vf, ← spriteDrawn_collides]
  cases (spriteDrawn x y n s).2 <;> decide

/-- Settles O41: pixel by pixel, with the collision in VF. -/
theorem drawSpriteInvertsTheCoveredPixels : Obligations.DrawSpriteInvertsTheCoveredPixels := fun _ _ _ _ h =>
  ⟨_, exec_drawSprite_of_inRange h, fun _ _ hx hy => pixel_afterDraw_ne_iff hx hy, reg_afterDraw_vf_cases,
    fun _ hr => reg_afterDraw_of_ne hr, rfl, rfl, fun _ => rfl⟩

/-! ## A second draw -/

/-- A draw moves neither the place of a sprite nor its bytes, when its coordinates are not in VF. -/
theorem spriteCovers_afterDraw (hx : x ≠ 15) (hy : y ≠ 15) :
    spriteCovers x y n (afterDraw x y n s) px py ↔ spriteCovers x y n s px py := by
  unfold spriteCovers
  rw [reg_afterDraw_of_ne hx, reg_afterDraw_of_ne hy]
  rfl

/-- Two draws invert the same pixels, so the screen is as before. -/
theorem fb_afterDraw_afterDraw (hx : x ≠ 15) (hy : y ≠ 15) : (afterDraw x y n (afterDraw x y n s)).fb = s.fb := by
  apply Framebuffer.ext_pixel
  intro px py hpx hpy
  have first := pixel_afterDraw_ne_iff (x := x) (y := y) (n := n) (s := s) hpx hpy
  have second := pixel_afterDraw_ne_iff (x := x) (y := y) (n := n) (s := afterDraw x y n s) hpx hpy
  rw [spriteCovers_afterDraw hx hy, ← first] at second
  have inverted_twice : ∀ a b c : Bool, (a ≠ b ↔ b ≠ c) → a = c := by decide
  exact inverted_twice _ _ _ second

/-- The second draw collides where the first found a covered pixel off. -/
theorem collides_afterDraw (hx : x ≠ 15) (hy : y ≠ 15) : Collides x y n (afterDraw x y n s) ↔
    ∃ px py, px < 64 ∧ py < 32 ∧ spriteCovers x y n s px py ∧ s.fb.pixel px py = false := by
  refine exists_congr fun px => exists_congr fun py => ?_
  rw [spriteCovers_afterDraw hx hy]
  refine and_congr_right fun hpx => and_congr_right fun hpy => and_congr_right fun covers => ?_
  have on_iff_off : ∀ a b : Bool, a ≠ b → (a = true ↔ b = false) := by decide
  exact on_iff_off _ _ ((pixel_afterDraw_ne_iff hpx hpy).2 covers)

/-- Settles O42: the second draw inverts the same pixels, now from their inverted values. -/
theorem drawingTwiceRestoresTheScreen : Obligations.DrawingTwiceRestoresTheScreen := by
  intro s t x y n hx hy range h
  cases (exec_drawSprite_of_inRange range).symm.trans h
  have again : spriteInRange n (afterDraw x y n s) := range
  refine ⟨_, exec_drawSprite_of_inRange again, fb_afterDraw_afterDraw hx hy, ?_⟩
  exact reg_afterDraw_vf_eq_one_iff.trans (collides_afterDraw hx hy)

end Sys2Proof.Display
end
